-- ==== Sys2Proof/Word.lean ====
section
/-! DEFINITION. The word types of the CORE: every width the spec gives a register or an instruction field
(spec/00_scope.md R5, R8, R10; spec/30_encoding.md R91). -/

namespace Sys2Proof

/-- A memory byte, a general register, a timer: 8 bits, unsigned (10_state.md R20, R29; 20_memory.md R60). -/
abbrev Byte := BitVec 8

/-- The index register, the program counter, a stack slot, an instruction word: 16 bits (00_scope.md R5). -/
abbrev Word := BitVec 16

/-- The fields X and Y: the index of one of the sixteen general registers (30_encoding.md R91). -/
abbrev RegIdx := BitVec 4

/-- The field NNN: a 12-bit address immediate (30_encoding.md R91). -/
abbrev Addr12 := BitVec 12

end Sys2Proof
end

