-- ==== Sys2Proof/Syntax.lean ====
section
/-! DEFINITION. The instructions, one constructor per row of spec/opcode_table.json (spec/30_encoding.md R95), and the
six operations the host makes on the CORE (spec/00_scope.md R6). -/

namespace Sys2Proof

/-- The 34 instructions in the table's order (30_encoding.md R95). -/
inductive Instr where
  | cls
  | ret
  | jp (nnn : Addr12)
  | call (nnn : Addr12)
  | seImm (x : RegIdx) (nn : Byte)
  | sneImm (x : RegIdx) (nn : Byte)
  | seReg (x y : RegIdx)
  | ldImm (x : RegIdx) (nn : Byte)
  | addImm (x : RegIdx) (nn : Byte)
  | ldReg (x y : RegIdx)
  | orReg (x y : RegIdx)
  | andReg (x y : RegIdx)
  | xorReg (x y : RegIdx)
  | addReg (x y : RegIdx)
  | subReg (x y : RegIdx)
  | shr (x y : RegIdx)
  | subnReg (x y : RegIdx)
  | shl (x y : RegIdx)
  | sneReg (x y : RegIdx)
  | ldI (nnn : Addr12)
  | jpV0 (nnn : Addr12)
  | rnd (x : RegIdx) (nn : Byte)
  | drw (x y : RegIdx) (n : BitVec 4)
  | skp (x : RegIdx)
  | sknp (x : RegIdx)
  | ldVxDt (x : RegIdx)
  | ldVxK (x : RegIdx)
  | ldDtVx (x : RegIdx)
  | ldStVx (x : RegIdx)
  | addI (x : RegIdx)
  | ldF (x : RegIdx)
  | ldB (x : RegIdx)
  | stRegs (x : RegIdx)
  | ldRegs (x : RegIdx)
  deriving DecidableEq, Repr

/-- The six atomic operations of 00_scope.md R6. A key index is any number here: only 0 to 15 is a defined call
(60_exceptions.md R228), which `HostOp.WellFormed` checks. -/
inductive HostOp where
  | reset
  | load (bytes : List Byte)
  | step
  | tick
  | keySet (k : Nat) (pressed : Bool)
  | fbRead
  deriving DecidableEq, Repr, Inhabited

end Sys2Proof
end

