-- ==== Sys2Proof/Config.lean ====
section
/-! DEFINITION. What is fixed for the machine: the parameters of spec/00_scope.md R5, the glyph table of
spec/20_memory.md R62, the two parameters the spec leaves OPEN (decisions D8 and D9), and the two free values: the byte
of the random source (spec/60_exceptions.md R232) and the operation the host makes (spec/00_scope.md R7). -/

namespace Sys2Proof

/-- SPRITE_EDGE: what DRW does with pixels beyond the screen edge (43_display.md R183, D8). -/
inductive SpriteEdge where
  | wrap
  | clip
  deriving DecidableEq, Repr, Inhabited

/-- SHIFT_SOURCE: which register SHR and SHL read (41_alu.md R148, D9). -/
inductive ShiftSource where
  | vx
  | vy
  deriving DecidableEq, Repr, Inhabited

/-- The two OPEN parameters "the model takes as an argument" (00_scope.md R5). State carries them (log 5). -/
structure Params where
  spriteEdge : SpriteEdge
  shiftSource : ShiftSource
  deriving DecidableEq, Repr

namespace Config

/-- MEM_SIZE (20_memory.md R60; UNVERIFIED decision D1, log 6, unsafe if the hardware has another size). -/
abbrev memSize : Nat := 4096

/-- LOAD_OFFSET (00_scope.md R5; UNVERIFIED decision D2, log 7, unsafe if the hardware loads elsewhere). -/
abbrev loadOffset : Nat := 0x200

/-- STACK_CAP (00_scope.md R5). -/
abbrev stackCap : Nat := 16

/-- NUM_KEYS (00_scope.md R5). -/
abbrev numKeys : Nat := 16

/-- FB_W and FB_H (00_scope.md R5). -/
abbrev fbWidth : Nat := 64
abbrev fbHeight : Nat := 32

/-- GLYPH_BASE and GLYPH_BYTES (00_scope.md R5). -/
abbrev glyphBase : Nat := 0
abbrev glyphBytes : Nat := 5

/-- The sixteen glyphs of five bytes, row 0 first (20_memory.md R62; UNVERIFIED decision D3, log 8, unsafe for a claim
about the pixels of a digit if the hardware has another font). -/
def glyphs : List Byte :=
  [0xF0, 0x90, 0x90, 0x90, 0xF0] ++ [0x20, 0x60, 0x20, 0x20, 0x70] ++
  [0xF0, 0x10, 0xF0, 0x80, 0xF0] ++ [0xF0, 0x10, 0xF0, 0x10, 0xF0] ++
  [0x90, 0x90, 0xF0, 0x10, 0x10] ++ [0xF0, 0x80, 0xF0, 0x10, 0xF0] ++
  [0xF0, 0x80, 0xF0, 0x90, 0xF0] ++ [0xF0, 0x10, 0x20, 0x40, 0x40] ++
  [0xF0, 0x90, 0xF0, 0x90, 0xF0] ++ [0xF0, 0x90, 0xF0, 0x10, 0xF0] ++
  [0xF0, 0x90, 0xF0, 0x90, 0x90] ++ [0xE0, 0x90, 0xE0, 0x90, 0xE0] ++
  [0xF0, 0x80, 0x80, 0x80, 0xF0] ++ [0xE0, 0x90, 0x90, 0x90, 0xE0] ++
  [0xF0, 0x80, 0xF0, 0x80, 0xF0] ++ [0xF0, 0x80, 0xF0, 0x80, 0x80]

/-- SPRITE_EDGE of this machine, OPEN (D8): no body, so nothing can be proved of its value (log 5, safe). -/
opaque spriteEdge : SpriteEdge

/-- SHIFT_SOURCE of this machine, OPEN (D9): no body, so nothing can be proved of its value (log 5, safe). -/
opaque shiftSource : ShiftSource

/-- The byte the random source gives at its n-th draw: a free value (60_exceptions.md R232, D21; log 4, safe). -/
opaque randomByte : Nat → Byte

/-- The operation the host makes as its n-th, where the model has not been told: a free value, so that every interleaving
of `step`, `tick`, `key_set` and the rest is possible and none is assumed (00_scope.md R7, D20; log 3, safe). -/
opaque hostOp : Nat → HostOp

end Config

end Sys2Proof
end

