-- ==== Sys2Proof/WellFormed.lean ====
section
/-! DEFINITION. What makes an instruction or a host operation well-formed. -/

namespace Sys2Proof

/-- Every instruction term is well-formed: the operand types are exactly the fields of 30_encoding.md R91, and R93 and
R20 exclude no value of a field, so there is nothing left to check. -/
def Instr.WellFormed (_ : Instr) : Bool := true

/-- A key index must be 0 to 15 ("An index outside 0..15 is not a defined call", 60_exceptions.md R228); every other
operation is a defined call with any argument (70_reset_and_hazards.md R254). -/
def HostOp.WellFormed : HostOp → Bool
  | .keySet k _ => decide (k < Config.numKeys)
  | .reset | .load _ | .step | .tick | .fbRead => true

/-- A schedule holds defined calls only. -/
def scheduleWellFormed (ops : List HostOp) : Bool := ops.all HostOp.WellFormed

end Sys2Proof
end

