-- ==== Sys2Proof/Machine/State.lean ====
section
/-! DEFINITION. The state of the CORE as plain data (spec/10_state.md R20 to R36), the reasons a step can stop, the
results the operations return, and the state after reset (R35). -/

namespace Sys2Proof.Machine

/-- The four fatal faults, with the address each records (60_exceptions.md R210). They are the values of the latch
FAULT (10_state.md R32): the instruction that raises one takes a NEXT state with the latch set (R216, log 1), so no
step answers `Host.Outcome.fault`. -/
inductive Fault where
  /-- Raised by CALL when SP = 16; records the address of the CALL (R212). Safe unless the hardware nests deeper (D11). -/
  | stackOverflow (addr : Nat)
  /-- Raised by RET when SP = 0; records the address of the RET (R213). Safe. -/
  | stackUnderflow (addr : Nat)
  /-- Raised by fetch, DRW, LD B, LD [I] and LD Vx,[I] on an address at or above MEM_SIZE; records the lowest one (R214).
  Safe (D6): the machine latches where the hardware might read or write something. -/
  | memBounds (addr : Nat)
  /-- Raised by LD B and LD [I] on an address below LOAD_OFFSET; records the lowest one (R215). Safe (D7). -/
  | storeProtect (addr : Nat)
  deriving DecidableEq, Repr

/-- Why the machine has no meaning for what it was asked. -/
inductive Refusal where
  /-- An instruction without a meaning: raised by no arm of `exec` as it stands. Safe. -/
  | notModelled (mnemonic : String)
  /-- `key_set` with an index above 15, raised by the host operation alone: "not a defined call ... a model gives it no
  step" (60_exceptions.md R228, D18, log 17). Safe. -/
  | undefinedKeyIndex (k : Nat)
  deriving DecidableEq, Repr

/-- The recoverable diagnostic `Unrecognized(w, a)`: the word and its address (60_exceptions.md R211). -/
structure Diagnostic where
  word : Word
  addr : Word
  deriving DecidableEq, Repr

/-- The event a `tick` may return (60_exceptions.md R225). -/
inductive TickEvent where
  | soundCueEnded
  deriving DecidableEq, Repr

/-- The framebuffer: 32 rows of 64 one-bit pixels; bit `x` of row `y` is `FB[x][y]` (10_state.md R30, log 22). -/
abbrev Framebuffer := Vector (BitVec 64) 32

/-- Memory: the cells that differ from their reset contents, sorted by address (log 21). -/
abbrev Memory := List Host.Cell

/-- What an operation returns (00_scope.md R6): the CORE's output, not its state (10_state.md R33). -/
inductive Output where
  /-- `reset` and `key_set` return nothing. -/
  | nothing
  /-- `Ok(display_changed, diagnostic)` of a step (30_encoding.md R94). -/
  | ok (displayChanged : Bool) (diagnostic : Option Diagnostic)
  /-- `Fatal(cause)` of a step (60_exceptions.md R216). -/
  | fatal (cause : Fault)
  /-- The optional event of a tick (60_exceptions.md R224). -/
  | ticked (event : Option TickEvent)
  /-- `Success` or `Failure` of a load (70_reset_and_hazards.md R251). -/
  | loaded (success : Bool)
  /-- The pixel grid of `fb_read` (60_exceptions.md R230). -/
  | frame (fb : Framebuffer)
  deriving DecidableEq, Repr

/-- All the state of the CORE (10_state.md R20 to R32), then the model's own fields: its two parameters, the inputs it
has still to take, and the output of its last operation (logs 2 to 5). -/
structure State where
  /-- V[0] to V[15]; V[15] is the flag register (R20, R22). -/
  v : Vector Byte 16
  /-- The index register I (R24). -/
  i : Word
  /-- The program counter (R25). -/
  pc : Word
  /-- STACK[0] to STACK[15] (R28). -/
  stack : Vector Word 16
  /-- The depth pointer SP, 0 to 16 (R28, C1). -/
  sp : Fin 17
  /-- The delay timer DT (R29). -/
  dt : Byte
  /-- The sound timer ST (R29). -/
  st : Byte
  /-- The framebuffer FB (R30). -/
  fb : Framebuffer
  /-- KEY[0] to KEY[15], true for pressed (R31). -/
  keys : Vector Bool 16
  /-- MEM (20_memory.md R60). -/
  mem : Memory
  /-- The latch FAULT (R32). -/
  fault : Option Fault
  /-- The model's own: SPRITE_EDGE and SHIFT_SOURCE (log 5). -/
  params : Params
  /-- The model's own: the bytes the random source is known to supply next (log 4). -/
  randIn : List Byte
  /-- The model's own: how many random bytes have been taken (log 4). -/
  randDrawn : Nat
  /-- The model's own: the operations the host is known to make next; after them it makes any (log 3). -/
  schedule : List HostOp
  /-- The model's own: how many operations have been made (log 3). -/
  opsMade : Nat
  /-- The model's own: what the last operation returned (log 2). -/
  out : Output
  deriving DecidableEq, Repr

/-- The machine right after reset (R35). Memory lists nothing: every byte holds its reset contents, the glyph table at
0x000 to 0x04F and 0 above (20_memory.md R61). The model's own fields are DESIGN CHOICES (logs 2 to 5). -/
def State.reset : State where
  v := Vector.replicate 16 0
  i := 0
  pc := BitVec.ofNat 16 Config.loadOffset
  stack := Vector.replicate 16 0
  sp := 0
  dt := 0
  st := 0
  fb := Vector.replicate 32 0
  keys := Vector.replicate 16 false
  mem := []
  fault := none
  params := ⟨Config.spriteEdge, Config.shiftSource⟩
  randIn := []
  randDrawn := 0
  schedule := []
  opsMade := 0
  out := .nothing

end Sys2Proof.Machine
end

