-- ==== Sys2Proof/Machine/Ops.lean ====
section
/-! DEFINITION. The named operations over registers, memory, the call stack, the framebuffer, the keys and the random
source, and the one entry of a fatal fault with the one way back from it (spec/00_scope.md R9; spec/20_memory.md R66 to
R68; spec/60_exceptions.md R216, R220). Every meaning is written over these. -/

namespace Sys2Proof.Machine

/-- What a step answers. -/
abbrev Result := Host.Outcome State Fault Refusal

/-! ### General registers (10_state.md R20) -/

/-- `V[x]`. -/
def State.getV (s : State) (x : RegIdx) : Byte := s.v[x.toNat]'x.isLt

/-- `V[x] <- b`. -/
def State.setV (s : State) (x : RegIdx) (b : Byte) : State := { s with v := s.v.set x.toNat b x.isLt }

/-! ### Memory: one cell (20_memory.md R60) -/

/-- What an address no cell lists reads as: its reset contents (R61, R62; log 21). -/
def Memory.unlisted (a : Nat) : Byte := Config.glyphs.getD a 0

/-- The byte at an address. -/
def Memory.read : Memory → Nat → Byte
  | [], a => Memory.unlisted a
  | (c, b) :: m, a => if c = a then b else Memory.read m a

/-- Memory with no cell listed for an address. -/
def Memory.erase (m : Memory) (a : Nat) : Memory := m.filter (fun c => c.1 != a)

/-- Memory with the cell of an address listed, in its place. -/
def Memory.insert : Memory → Nat → Byte → Memory
  | [], a, b => [(a, b)]
  | (c, d) :: m, a, b =>
    if a < c then (a, b) :: (c, d) :: m
    else if a = c then (a, b) :: m
    else (c, d) :: Memory.insert m a b

/-- Memory with the byte at an address replaced; a cell equal to what the address reads as unlisted is not kept. -/
def Memory.write (m : Memory) (a : Nat) (b : Byte) : Memory :=
  if b = Memory.unlisted a then Memory.erase m a else Memory.insert m a b

/-- The canonical form: addresses strictly rising and below MEM_SIZE, no cell equal to what it reads as unlisted. -/
abbrev Memory.wf (m : Memory) : Prop :=
  m.Pairwise (fun c d => c.1 < d.1) ∧ ∀ c ∈ m, c.1 < Config.memSize ∧ c.2 ≠ Memory.unlisted c.1

/-! ### Memory: consecutive bytes, ascending (20_memory.md R65) -/

/-- The `n` bytes from an address upward. -/
def Memory.readSpan (m : Memory) : Nat → Nat → List Byte
  | _, 0 => []
  | a, n + 1 => m.read a :: Memory.readSpan m (a + 1) n

/-- The bytes written from an address upward. -/
def Memory.writeSpan : Memory → Nat → List Byte → Memory
  | m, _, [] => m
  | m, a, b :: bs => Memory.writeSpan (m.write a b) (a + 1) bs

/-! ### The checks of an access (R66, R67; decisions D6 and D7, log 10) -/

/-- The fault of reading one byte. -/
def readFault (a : Nat) : Option Fault :=
  if Config.memSize ≤ a then some (.memBounds a) else none

/-- The fault of a store instruction writing one byte. -/
def writeFault (a : Nat) : Option Fault :=
  if Config.memSize ≤ a then some (.memBounds a)
  else if a < Config.loadOffset then some (.storeProtect a)
  else none

/-- The fault of the lowest failing address of `n` consecutive ones, if any fails (R166). -/
def checkSpan (check : Nat → Option Fault) : Nat → Nat → Option Fault
  | _, 0 => none
  | a, n + 1 =>
    match check a with
    | some c => some c
    | none => checkSpan check (a + 1) n

/-- `MemRead(addr, n)` (R66): every address is checked before anything is read. -/
def State.memRead (s : State) (a n : Nat) : Except Fault (List Byte) :=
  match checkSpan readFault a n with
  | some c => .error c
  | none => .ok (s.mem.readSpan a n)

/-- `MemWrite` of consecutive bytes by a store instruction (R67): every address is checked before anything is written. -/
def State.memWrite (s : State) (a : Nat) (bs : List Byte) : Except Fault State :=
  match checkSpan writeFault a bs.length with
  | some c => .error c
  | none => .ok { s with mem := s.mem.writeSpan a bs }

/-- `Fetch(pc)` (R68): two bytes at any pc, big-endian (R63, R64). -/
def State.fetch (s : State) : Except Fault Word :=
  match checkSpan readFault s.pc.toNat 2 with
  | some c => .error c
  | none => .ok (wordOfBytes (s.mem.read s.pc.toNat) (s.mem.read (s.pc.toNat + 1)))

/-! ### The call stack (10_state.md R28) -/

/-- The state with a word pushed, or none when all sixteen slots are in use (40_control_transfer.md R123). -/
def State.push (s : State) (w : Word) : Option State :=
  if h : s.sp.val < 16 then
    some { s with stack := s.stack.set s.sp.val w h, sp := ⟨s.sp.val + 1, Nat.succ_lt_succ h⟩ }
  else none

/-- The word popped and the state after, or none when the stack is empty (R121). The slot keeps its value. -/
def State.pop (s : State) : Option (Word × State) :=
  if h : 0 < s.sp.val then
    some (s.stack[s.sp.val - 1]'(by omega), { s with sp := ⟨s.sp.val - 1, by omega⟩ })
  else none

/-! ### Framebuffer, keys, random source -/

/-- `FB[x][y]`; off the grid there is no pixel. -/
def Framebuffer.pixel (fb : Framebuffer) (x y : Nat) : Bool :=
  if h : y < 32 then (fb[y]'h).getLsbD x else false

/-- `FB[x][y] <- FB[x][y] ^ 1`. -/
def Framebuffer.toggle (fb : Framebuffer) (x y : Nat) : Framebuffer :=
  if h : y < 32 then fb.set y (fb[y]'h ^^^ BitVec.twoPow 64 x) h else fb

/-- A grid with every pixel unset. -/
def Framebuffer.clear : Framebuffer := Vector.replicate 32 0

/-- Whether `KEY[k]` is pressed. -/
def State.keyDown (s : State) (k : Nat) : Bool :=
  if h : k < 16 then s.keys[k]'h else false

/-- The least pressed key: "scans all 16 keys in a fixed, ascending index order" (44_keypad_timers.md R193). -/
def State.firstKey (s : State) : Option Nat := (List.range Config.numKeys).find? s.keyDown

/-- The byte `rand8()` returns next: the next one supplied, else the free value (60_exceptions.md R232, log 4). -/
def State.nextRandom (s : State) : Byte := s.randIn.headD (Config.randomByte s.randDrawn)

/-- The state after `rand8()` has taken its one byte. -/
def State.takeRandom (s : State) : State := { s with randIn := s.randIn.tail, randDrawn := s.randDrawn + 1 }

/-! ### What the host does next (00_scope.md R7; log 3) -/

/-- The state with another list of operations to come. -/
def State.setSchedule (s : State) (ops : List HostOp) : State := { s with schedule := ops }

/-- The call the host makes for an operation: the host must "pass k in 0..15" (70_reset_and_hazards.md R254), so a key index
is taken modulo 16; every defined call is its own. -/
def definedCall : HostOp → HostOp
  | .keySet k pressed => .keySet (k % Config.numKeys) pressed
  | .reset => .reset
  | .load bytes => .load bytes
  | .step => .step
  | .tick => .tick
  | .fbRead => .fbRead

/-- The operation made next: the next one known, else any defined call, of which nothing is known (R7, D20). -/
def State.nextOp (s : State) : HostOp := s.schedule.headD (definedCall (Config.hostOp s.opsMade))

/-- The state in which that operation is made: it is no longer to come, and is counted. -/
def State.takeOp (s : State) : State := { s with schedule := s.schedule.tail, opsMade := s.opsMade + 1 }

/-! ### The end of a step -/

/-- The state after an instruction that ends with this pc and reports this display_changed (30_encoding.md R94). -/
def State.finish (s : State) (pc : Word) (displayChanged : Bool) : State :=
  { s with pc := pc, out := .ok displayChanged none }

/-- An instruction that leaves the display alone completes at `pc + 2` (10_state.md R26). -/
def completeNext (s : State) : Result := .next (s.finish (s.pc + 2) false)

/-- A skip completes at `pc + 4` when its condition holds, else at `pc + 2` (40_control_transfer.md R120). -/
def completeSkip (s : State) (taken : Bool) : Result :=
  .next (s.finish (if taken then s.pc + 4 else s.pc + 2) false)

/-- A jump completes at its target, which is not checked (R120). -/
def completeJump (s : State) (target : Word) : Result := .next (s.finish target false)

/-- An instruction that touches the display completes at `pc + 2` and reports it (43_display.md). -/
def completeDisplay (s : State) : Result := .next (s.finish (s.pc + 2) true)

/-- An unrecognized word: pc + 2 and the diagnostic, nothing else (60_exceptions.md R211). -/
def State.unrecognized (s : State) (w : Word) : State :=
  { s with pc := s.pc + 2, out := .ok false (some ⟨w, s.pc⟩) }

/-! ### Fatal entry and the way back (60_exceptions.md R216, R220; log 1) -/

/-- The state in which a fault is latched: nothing else of the CORE changes, and pc stays at the faulting instruction. -/
def State.latch (s : State) (c : Fault) : State := { s with fault := some c, out := .fatal c }

/-- `raise`: the step abandons its writes and takes the fatal entry. -/
def raise (c : Fault) (s : State) : Result := .next (s.latch c)

/-- The state after a step on a faulted CORE: it returns `Fatal(FAULT)` and changes nothing (R94, R216). -/
def State.stillFaulted (s : State) (c : Fault) : State := { s with out := .fatal c }

/-- `reset`, the only way out of a faulted state: every piece of the CORE's state takes its reset value, whatever it was
(70_reset_and_hazards.md R250). What is outside the CORE (parameters, random source, the host's operations) stays (log 26). -/
def State.hostReset (s : State) : State :=
  { State.reset with
    params := s.params, randIn := s.randIn, randDrawn := s.randDrawn, schedule := s.schedule, opsMade := s.opsMade }

/-- The cause codes of R210, "the spec's own enumeration"; `Unrecognized` is 1 (R217). -/
def Fault.code : Fault → Nat
  | .stackOverflow _ => 2
  | .stackUnderflow _ => 3
  | .memBounds _ => 4
  | .storeProtect _ => 5

/-- The code of the recoverable diagnostic (R210). -/
def Diagnostic.code (_ : Diagnostic) : Nat := 1

/-- The level `sound_active = (ST ≠ 0)`, a view the host may sample (60_exceptions.md R226, log 27). -/
def State.soundActive (s : State) : Bool := s.st != 0

end Sys2Proof.Machine
end

