-- ==== Sys2Proof/Machine/Operands.lean ====
section
/-! DEFINITION. The operand forms: what an instruction reads before it writes (spec/30_encoding.md R93; spec/42_index_memory.md
R162, R166; spec/43_display.md R181, R183; spec/41_alu.md R148; spec/44_keypad_timers.md R190). -/

namespace Sys2Proof.Machine

/-- NNN as a 16-bit value, zero-extended (30_encoding.md R93). -/
def addrOfNNN (nnn : Addr12) : Word := nnn.setWidth 16

/-- A register value as an addend of a 16-bit sum, zero-extended (R93, R161, R128). -/
def wideByte (b : Byte) : Word := b.setWidth 16

/-- The low nibble of a register value, as a key index or a digit (44_keypad_timers.md R190, 42_index_memory.md R162). -/
def lowNibble (b : Byte) : Nat := b.toNat % 16

/-- The address of the glyph of a register's low nibble (R162). -/
def glyphAddr (b : Byte) : Word := BitVec.ofNat 16 (Config.glyphBase + Config.glyphBytes * lowNibble b)

/-- The base of a memory operand, taken as a number so that `I + k` does not wrap (R166, 20_memory.md R66). -/
def State.base (s : State) : Nat := s.i.toNat

/-- How many registers the field X of a bulk transfer names: `V[0]` to `V[X]` (R164, R165). -/
def bulkCount (x : RegIdx) : Nat := x.toNat + 1

/-- `V[0]`, `V[1]`, ..., the first `n` of them (R164). -/
def State.firstRegs (s : State) (n : Nat) : List Byte := s.v.toList.take n

/-- `V[k]`, `V[k+1]`, ... loaded from a list of bytes (R165). -/
def State.setRegs (s : State) : Nat → List Byte → State
  | _, [] => s
  | k, b :: bs => State.setRegs (s.setV (BitVec.ofNat 4 k) b) (k + 1) bs

/-- The decimal digits of a byte: hundreds, tens, units (R163). -/
def bcdDigits (b : Byte) : List Byte :=
  [BitVec.ofNat 8 (b.toNat / 100), BitVec.ofNat 8 (b.toNat / 10 % 10), BitVec.ofNat 8 (b.toNat % 10)]

/-- The source value of SHR and SHL (41_alu.md R148, D9, log 5). -/
def State.shiftOperand (s : State) (x y : RegIdx) : Byte :=
  match s.params.shiftSource with
  | .vx => s.getV x
  | .vy => s.getV y

/-- The pixel a sprite bit lands on, or none (43_display.md R183, D8, log 5). -/
def place (edge : SpriteEdge) (x y : Nat) : Option (Nat × Nat) :=
  match edge with
  | .wrap => some (x % Config.fbWidth, y % Config.fbHeight)
  | .clip => if x < Config.fbWidth ∧ y < Config.fbHeight then some (x, y) else none

/-- Column `c` of a sprite row is bit `7 - c` of its byte (R181, D15, log 14). -/
def spriteBit (b : Byte) (c : Nat) : Bool := b.getLsbD (7 - c)

end Sys2Proof.Machine
end

