-- ==== Sys2Proof/Machine/Flags.lean ====
section
/-! DEFINITION. The flag computations: the value each instruction of spec/10_state.md R22 leaves in V[15], and the order
in which result and flag are written (R23; spec/41_alu.md R153). -/

namespace Sys2Proof.Machine

/-- The index of the flag register (00_scope.md R5). -/
def flagReg : RegIdx := 15

/-- A flag as the byte stored: 1 or 0 (10_state.md R22). -/
def flagByte (f : Bool) : Byte := if f then 1 else 0

/-- Carry of the register add: the widened sum exceeds 255 (41_alu.md R146). -/
def carryFlag (x y : Byte) : Bool := decide (255 < x.toNat + y.toNat)

/-- No borrow of `x - y` (R147; with the operands swapped R149). -/
def noBorrowFlag (x y : Byte) : Bool := decide (y.toNat ≤ x.toNat)

/-- The bit SHR shifts out: bit 0 of the source (R148). -/
def shiftRightFlag (v : Byte) : Bool := v.getLsbD 0

/-- The bit SHL shifts out: bit 7 of the source (R150). -/
def shiftLeftFlag (v : Byte) : Bool := v.getLsbD 7

/-- The result to `V[x]`, then the flag to `V[15]`, which wins when x = 15 (R153, D10, log 11). -/
def State.setWithFlag (s : State) (x : RegIdx) (result : Byte) (flag : Bool) : State :=
  (s.setV x result).setV flagReg (flagByte flag)

end Sys2Proof.Machine
end

