-- ==== Sys2Proof/Machine/Alu.lean ====
section
/-! DEFINITION. Register load, arithmetic, logic, shift and random (spec/41_alu.md). -/

namespace Sys2Proof.Machine

/-- LD Vx,NN (R140). -/
def execLdImm (x : RegIdx) (nn : Byte) (s : State) : Result := completeNext (s.setV x nn)

/-- ADD Vx,NN (R141): no carry is recorded. -/
def execAddImm (x : RegIdx) (nn : Byte) (s : State) : Result := completeNext (s.setV x (s.getV x + nn))

/-- LD Vx,Vy (R142). -/
def execLdReg (x y : RegIdx) (s : State) : Result := completeNext (s.setV x (s.getV y))

/-- OR Vx,Vy (R143): the flag register is not reset. -/
def execOrReg (x y : RegIdx) (s : State) : Result := completeNext (s.setV x (s.getV x ||| s.getV y))

/-- AND Vx,Vy (R144). -/
def execAndReg (x y : RegIdx) (s : State) : Result := completeNext (s.setV x (s.getV x &&& s.getV y))

/-- XOR Vx,Vy (R145). -/
def execXorReg (x y : RegIdx) (s : State) : Result := completeNext (s.setV x (s.getV x ^^^ s.getV y))

/-- ADD Vx,Vy (R146). -/
def execAddReg (x y : RegIdx) (s : State) : Result :=
  completeNext (s.setWithFlag x (s.getV x + s.getV y) (carryFlag (s.getV x) (s.getV y)))

/-- SUB Vx,Vy (R147). -/
def execSubReg (x y : RegIdx) (s : State) : Result :=
  completeNext (s.setWithFlag x (s.getV x - s.getV y) (noBorrowFlag (s.getV x) (s.getV y)))

/-- SHR Vx{,Vy} (R148). -/
def execShr (x y : RegIdx) (s : State) : Result :=
  completeNext (s.setWithFlag x (s.shiftOperand x y >>> 1) (shiftRightFlag (s.shiftOperand x y)))

/-- SUBN Vx,Vy (R149). -/
def execSubnReg (x y : RegIdx) (s : State) : Result :=
  completeNext (s.setWithFlag x (s.getV y - s.getV x) (noBorrowFlag (s.getV y) (s.getV x)))

/-- SHL Vx{,Vy} (R150). -/
def execShl (x y : RegIdx) (s : State) : Result :=
  completeNext (s.setWithFlag x (s.shiftOperand x y <<< 1) (shiftLeftFlag (s.shiftOperand x y)))

/-- RND Vx,NN (R151): exactly one byte is taken from the random source. -/
def execRnd (x : RegIdx) (nn : Byte) (s : State) : Result :=
  completeNext (s.takeRandom.setV x (s.nextRandom &&& nn))

end Sys2Proof.Machine
end

