-- ==== Sys2Proof/Machine/Control.lean ====
section
/-! DEFINITION. Control transfer: RET, JP, CALL, the four register skips, JP V0 (spec/40_control_transfer.md). -/

namespace Sys2Proof.Machine

/-- RET (R121): pop, then resume after the CALL. -/
def execRet (s : State) : Result :=
  match s.pop with
  | none => raise (.stackUnderflow s.pc.toNat) s
  | some (w, t) => completeJump t (w + 2)

/-- JP NNN (R122). -/
def execJp (nnn : Addr12) (s : State) : Result := completeJump s (addrOfNNN nnn)

/-- CALL NNN (R123): push the address of this CALL, then jump. -/
def execCall (nnn : Addr12) (s : State) : Result :=
  match s.push s.pc with
  | none => raise (.stackOverflow s.pc.toNat) s
  | some t => completeJump t (addrOfNNN nnn)

/-- SE Vx,NN (R124). -/
def execSeImm (x : RegIdx) (nn : Byte) (s : State) : Result := completeSkip s (s.getV x == nn)

/-- SNE Vx,NN (R125). -/
def execSneImm (x : RegIdx) (nn : Byte) (s : State) : Result := completeSkip s (s.getV x != nn)

/-- SE Vx,Vy (R126). -/
def execSeReg (x y : RegIdx) (s : State) : Result := completeSkip s (s.getV x == s.getV y)

/-- SNE Vx,Vy (R127). -/
def execSneReg (x y : RegIdx) (s : State) : Result := completeSkip s (s.getV x != s.getV y)

/-- JP V0,NNN (R128): the sum is 16 bits wide, not reduced to 12. -/
def execJpV0 (nnn : Addr12) (s : State) : Result := completeJump s (addrOfNNN nnn + wideByte (s.getV 0))

end Sys2Proof.Machine
end

