-- ==== Sys2Proof/Machine/Display.lean ====
section
/-! DEFINITION. Display: CLS and DRW (spec/43_display.md). -/

namespace Sys2Proof.Machine

/-- CLS (R180). -/
def execCls (s : State) : Result := completeDisplay { s with fb := Framebuffer.clear }

/-- One set sprite bit drawn at `(x, y)`: the pixel it lands on is toggled, and a pixel that was set is a collision (R182). -/
def plot (edge : SpriteEdge) (x y : Nat) (acc : Framebuffer × Bool) : Framebuffer × Bool :=
  match place edge x y with
  | none => acc
  | some (px, py) => (acc.1.toggle px py, acc.2 || acc.1.pixel px py)

/-- One sprite row drawn at `(x0, y)`, columns 0 to 7 (R181, R182). -/
def drawRow (edge : SpriteEdge) (x0 y : Nat) (b : Byte) (acc : Framebuffer × Bool) : Framebuffer × Bool :=
  (List.range 8).foldl (fun acc c => if spriteBit b c then plot edge (x0 + c) y acc else acc) acc

/-- The rows of a sprite drawn one below the other (R182). -/
def drawRows (edge : SpriteEdge) (x0 : Nat) : Nat → List Byte → Framebuffer × Bool → Framebuffer × Bool
  | _, [], acc => acc
  | y, b :: bs, acc => drawRows edge x0 (y + 1) bs (drawRow edge x0 y b acc)

/-- DRW Vx,Vy,N (R182): coordinates are read before the flag is written; a height of 0 draws nothing (D23, log 15). -/
def execDrw (x y : RegIdx) (n : BitVec 4) (s : State) : Result :=
  match s.memRead s.base n.toNat with
  | .error c => raise c s
  | .ok rows =>
    let drawn := drawRows s.params.spriteEdge (s.getV x).toNat (s.getV y).toNat rows (s.fb, false)
    completeDisplay ({ s with fb := drawn.1 }.setV flagReg (flagByte drawn.2))

end Sys2Proof.Machine
end

