-- ==== Sys2Proof/Machine/IndexMem.lean ====
section
/-! DEFINITION. Index register, glyph address, BCD, bulk store and load (spec/42_index_memory.md). -/

namespace Sys2Proof.Machine

/-- LD I,NNN (R160). -/
def execLdI (nnn : Addr12) (s : State) : Result := completeNext { s with i := addrOfNNN nnn }

/-- ADD I,Vx (R161): 16-bit wrap, no flag. -/
def execAddI (x : RegIdx) (s : State) : Result := completeNext { s with i := s.i + wideByte (s.getV x) }

/-- LD F,Vx (R162). -/
def execLdF (x : RegIdx) (s : State) : Result := completeNext { s with i := glyphAddr (s.getV x) }

/-- LD B,Vx (R163). -/
def execLdB (x : RegIdx) (s : State) : Result :=
  match s.memWrite s.base (bcdDigits (s.getV x)) with
  | .error c => raise c s
  | .ok t => completeNext t

/-- LD [I],Vx (R164): I is not changed. -/
def execStRegs (x : RegIdx) (s : State) : Result :=
  match s.memWrite s.base (s.firstRegs (bulkCount x)) with
  | .error c => raise c s
  | .ok t => completeNext t

/-- LD Vx,[I] (R165): I is not changed. -/
def execLdRegs (x : RegIdx) (s : State) : Result :=
  match s.memRead s.base (bulkCount x) with
  | .error c => raise c s
  | .ok bs => completeNext (s.setRegs 0 bs)

end Sys2Proof.Machine
end

