-- ==== Sys2Proof/Machine/KeyTimer.lean ====
section
/-! DEFINITION. Keypad and timer instructions (spec/44_keypad_timers.md). -/

namespace Sys2Proof.Machine

/-- SKP Vx (R190). -/
def execSkp (x : RegIdx) (s : State) : Result := completeSkip s (s.keyDown (lowNibble (s.getV x)))

/-- SKNP Vx (R191). -/
def execSknp (x : RegIdx) (s : State) : Result := completeSkip s (!s.keyDown (lowNibble (s.getV x)))

/-- LD Vx,DT (R192). -/
def execLdVxDt (x : RegIdx) (s : State) : Result := completeNext (s.setV x s.dt)

/-- LD Vx,K (R193): with no key pressed nothing changes and pc stays, so the next step runs this word again. -/
def execLdVxK (x : RegIdx) (s : State) : Result :=
  match s.firstKey with
  | some k => completeNext (s.setV x (BitVec.ofNat 8 k))
  | none => completeJump s s.pc

/-- LD DT,Vx (R194). -/
def execLdDtVx (x : RegIdx) (s : State) : Result := completeNext { s with dt := s.getV x }

/-- LD ST,Vx (R195): no event, whatever is overwritten. -/
def execLdStVx (x : RegIdx) (s : State) : Result := completeNext { s with st := s.getV x }

end Sys2Proof.Machine
end

