-- ==== Sys2Proof/Machine/HostOps.lean ====
section
/-! DEFINITION. The host operations other than `step` and `reset`: `load`, `tick`, `key_set`, `fb_read`
(spec/70_reset_and_hazards.md R251, R252; spec/60_exceptions.md R224, R228, R230). They do not read FAULT (R231).
`reset` stands in Machine/Ops.lean beside the fatal entry it leaves. -/

namespace Sys2Proof.Machine

/-- `load(bytes)` (R251): copied from LOAD_OFFSET upward, or nothing at all when it does not fit (R252). -/
def State.hostLoad (s : State) (bytes : List Byte) : State :=
  if Config.memSize - Config.loadOffset < bytes.length then { s with out := .loaded false }
  else { s with mem := s.mem.writeSpan Config.loadOffset bytes, out := .loaded true }

/-- One countdown: down by one, never below 0 (R224). -/
def countDown (b : Byte) : Byte := if b = 0 then 0 else b - 1

/-- The event of a tick that finds this sound timer: the cue ends exactly on the way from 1 to 0 (R225). -/
def cueEvent (st : Byte) : Option TickEvent := if st = 1 then some .soundCueEnded else none

/-- `tick` (R224). -/
def State.hostTick (s : State) : State :=
  { s with dt := countDown s.dt, st := countDown s.st, out := .ticked (cueEvent s.st) }

/-- `key_set(k, pressed)` (R228); an index above 15 is no defined call (log 17). -/
def hostKeySet (k : Nat) (pressed : Bool) (s : State) : Result :=
  if h : k < 16 then .next { s with keys := s.keys.set k pressed h, out := .nothing }
  else .refused (.undefinedKeyIndex k)

/-- `fb_read` (R230): the grid as it is; nothing changes. -/
def State.hostFbRead (s : State) : State := { s with out := .frame s.fb }

end Sys2Proof.Machine
end

