-- ==== Sys2Proof/Machine/Cycle.lean ====
section
/-! DEFINITION. The step protocol of spec/30_encoding.md R94 (fetch, decode, execute), the six host operations by name
(spec/00_scope.md R6), and which one the machine makes next (R7). -/

namespace Sys2Proof.Machine

/-- The `step` operation (R94), its checks in the order of 60_exceptions.md R218: the latch, the fetch, the decoding, the
instruction's own. -/
def instrStep (s : State) : Result :=
  match s.fault with
  | some c => .next (s.stillFaulted c)
  | none =>
    match s.fetch with
    | .error c => raise c s
    | .ok w =>
      match decode w with
      | some i => exec i s
      | none => .next (s.unrecognized w)

/-- One host operation (R6). -/
def operate (op : HostOp) (s : State) : Result :=
  match op with
  | .reset => .next s.hostReset
  | .load bytes => .next (s.hostLoad bytes)
  | .step => instrStep s
  | .tick => .next s.hostTick
  | .keySet k pressed => hostKeySet k pressed s
  | .fbRead => .next s.hostFbRead

/-- The next operation of the host is made, whichever of the six it is (R7, log 3). -/
def runNext (s : State) : Result := operate s.nextOp s.takeOp

/-- The state with these bytes at the pc, fewer where they would lie above memory. -/
def State.placeAtPc (s : State) (bytes : List Byte) : State :=
  { s with mem := s.mem.writeSpan s.pc.toNat (bytes.take (Config.memSize - s.pc.toNat)) }

/-- The state whose next operation is a `step` that is not stopped by the latch; the operations known to come follow it. -/
def State.readyToStep (s : State) : State := { s with schedule := .step :: s.schedule, fault := none }

end Sys2Proof.Machine
end

