-- ==== Sys2Proof/Machine/Step.lean ====
section
/-! DEFINITION. One step of the machine, and an instruction word stored where the next one is fetched. -/

namespace Sys2Proof.Machine

/-- The machine makes its next operation. -/
def step (s : State) : Host.Outcome State Fault Refusal := runNext s

/-- `s` with the word numbered as spec/opcode_table.json numbers it at the pc, high byte first, a `step` ahead of the
operations known to come and the latch clear, so that the very next step fetches and runs it (log 20). -/
def State.withFetchWord (s : State) (nbits w : Nat) : State :=
  (s.placeAtPc (bytesOfWord (tableWord nbits w))).readyToStep

end Sys2Proof.Machine
end

