-- ==== Sys2Proof/Safety.lean ====
section
/-! DEFINITION. The terms in which claims are stated: the parts of the state and what it means that one is unchanged,
the pc after each instruction (spec/10_state.md R26), a live and a finished CORE (spec/60_exceptions.md R216;
spec/70_reset_and_hazards.md R255), and the invariants. -/

namespace Sys2Proof.Machine

/-- The parts of the state, each as small as an instruction can change it alone: a register, a stack slot, a pixel, a
key, a byte of memory, and every other field whole. -/
inductive Part where
  | v (x : RegIdx)
  | i
  | pc
  | stack (k : Nat)
  | sp
  | dt
  | st
  | pixel (x y : Nat)
  | key (k : Nat)
  | byte (a : Nat)
  | fault
  | params
  | randIn
  | randDrawn
  | schedule
  | opsMade
  | out
  deriving DecidableEq, Repr

/-- A part holds in `t` what it held in `s`. Memory is compared byte by byte, through the model's read of one byte. -/
def Part.Same (s t : State) : Part → Prop
  | .v x => t.getV x = s.getV x
  | .i => t.i = s.i
  | .pc => t.pc = s.pc
  | .stack k => t.stack[k]? = s.stack[k]?
  | .sp => t.sp = s.sp
  | .dt => t.dt = s.dt
  | .st => t.st = s.st
  | .pixel x y => t.fb.pixel x y = s.fb.pixel x y
  | .key k => t.keyDown k = s.keyDown k
  | .byte a => t.mem.read a = s.mem.read a
  | .fault => t.fault = s.fault
  | .params => t.params = s.params
  | .randIn => t.randIn = s.randIn
  | .randDrawn => t.randDrawn = s.randDrawn
  | .schedule => t.schedule = s.schedule
  | .opsMade => t.opsMade = s.opsMade
  | .out => t.out = s.out

/-- Every part outside `changed` is unchanged: the frame of an operation. -/
def Frame (changed : Part → Prop) (s t : State) : Prop := ∀ p, ¬changed p → p.Same s t

/-- The step ended at this pc and returned `Ok(display_changed, none)` (30_encoding.md R94). -/
def EndsAt (t : State) (pc : Word) (displayChanged : Bool) : Prop :=
  t.pc = pc ∧ t.out = .ok displayChanged none

/-- The fatal entry with this cause, precise: FAULT and the result `Fatal(cause)`, nothing else (60_exceptions.md R216). -/
def FatalEntry (cause : Fault) (s t : State) : Prop :=
  t.fault = some cause ∧ t.out = .fatal cause ∧ Frame (fun p => p = .fault ∨ p = .out) s t

/-- The pc an instruction leaves when it raises nothing: the table of 10_state.md R26. -/
def pcAfter (s : State) : Instr → Word
  | .seImm x nn => if s.getV x = nn then s.pc + 4 else s.pc + 2
  | .sneImm x nn => if s.getV x ≠ nn then s.pc + 4 else s.pc + 2
  | .seReg x y => if s.getV x = s.getV y then s.pc + 4 else s.pc + 2
  | .sneReg x y => if s.getV x ≠ s.getV y then s.pc + 4 else s.pc + 2
  | .skp x => if s.keyDown ((s.getV x).toNat % 16) = true then s.pc + 4 else s.pc + 2
  | .sknp x => if s.keyDown ((s.getV x).toNat % 16) = false then s.pc + 4 else s.pc + 2
  | .jp nnn => BitVec.ofNat 16 nnn.toNat
  | .call nnn => BitVec.ofNat 16 nnn.toNat
  | .jpV0 nnn => BitVec.ofNat 16 (nnn.toNat + (s.getV 0).toNat)
  | .ret => s.stack.toList.getD (s.sp.val - 1) 0 + 2
  | .ldVxK _ => if ∃ k < 16, s.keyDown k = true then s.pc + 2 else s.pc
  | .cls | .ldImm _ _ | .addImm _ _ | .ldReg _ _ | .orReg _ _ | .andReg _ _ | .xorReg _ _ => s.pc + 2
  | .addReg _ _ | .subReg _ _ | .shr _ _ | .subnReg _ _ | .shl _ _ | .rnd _ _ => s.pc + 2
  | .ldI _ | .addI _ | .ldF _ | .ldB _ | .stRegs _ | .ldRegs _ | .drw _ _ _ => s.pc + 2
  | .ldVxDt _ | .ldDtVx _ | .ldStVx _ => s.pc + 2

/-- A CORE no fault has stopped (60_exceptions.md R216). -/
def State.Live (s : State) : Prop := s.fault = none

/-- The spec's convention for a finished program: live, and the word at pc is a JP to pc itself (70_reset_and_hazards.md
R255, D24). -/
def State.Finished (s : State) : Prop :=
  s.Live ∧ ∃ w nnn, s.fetch = .ok w ∧ decode w = some (.jp nnn) ∧ nnn.toNat = s.pc.toNat

/-- The operation the host makes next is `step`: the one known to come, or the free one (log 3). -/
def State.AboutToStep (s : State) : Prop := s.nextOp = .step

/-- Every address below LOAD_OFFSET holds its reset contents: "No other component writes below the load offset"
(20_memory.md R61). -/
def State.LowMemoryIntact (s : State) : Prop :=
  ∀ a, a < Config.loadOffset → s.mem.read a = Config.glyphs.getD a 0

/-- A sprite bit of a draw lands on the pixel `(px, py)` (43_display.md R182, R183): row `r` below `n`, column `c` below 8. -/
def SpriteHits (s : State) (x y : RegIdx) (n px py : Nat) : Prop :=
  ∃ r < n, ∃ c < 8, (s.mem.read (s.i.toNat + r)).getLsbD (7 - c) = true ∧
    place s.params.spriteEdge ((s.getV x).toNat + c) ((s.getV y).toNat + r) = some (px, py)

end Sys2Proof.Machine
end

