-- ==== Sys2Proof/Certificates/Slice0/Obligations.lean ====
section
/-! DEFINITION. The statements for the provers, from the numbered rules of spec/. A statement's docstring names its rules
and says where it rests on a decision of the spec or a choice of the model (log <n> is notes/assumptions/<n>.md).
The opcode numbers in the encoding clauses are the numbers the cited rules state, decision D4 of the spec (log 9).
`Part`, `Part.Same`, `Frame`, `EndsAt`, `FatalEntry`, `pcAfter` and `SpriteHits` stand in Sys2Proof/Safety.lean. A step
of the machine is one operation of the host: `nextOp` is which, `takeOp` is the state with it taken off those to come
(the model's own booking, log 3), and `AboutToStep` says that it is `step`. -/

open Sys2Proof Sys2Proof.Machine

/-! ### Encoding -/

/-- R95, R100: every instruction, with every operand at every value its fields admit, is what its encoding decodes to.
The numbers are decision D4 of the spec (log 9). -/
def Obligations.DecodeOfEncodeIsTheInstruction : Prop :=
  ∀ i : Instr, decode (encode i) = some i

/-- R94, R96: a word that decodes is the encoding of what it decodes to, so no bit of a recognized word is ignored and
no instruction has two words (D4, D5; log 9). -/
def Obligations.EncodeOfDecodeIsTheWord : Prop :=
  ∀ (w : Word) (i : Instr), decode w = some i → encode i = w

/-- R96 (D5, log 9): a word is an instruction exactly when a row of the table of R95 matches it, the row that matches is
the one of the decoded instruction, and at most one row matches. -/
def Obligations.WordDecodesIffARowMatches : Prop :=
  (∀ w : Word, (decode w).isSome = opcodeRows.any (rowMatches w)) ∧
  (∀ (w : Word) (i : Instr), decode w = some i → rowMatches w i.maskMatch = true) ∧
  (∀ w : Word, ∀ r₁ ∈ opcodeRows, ∀ r₂ ∈ opcodeRows, rowMatches w r₁ = true → rowMatches w r₂ = true → r₁ = r₂)

/-- R96, R97 (D5, log 9): the unrecognized words, class by class, as the table of R96 lists them. -/
def Obligations.UnrecognizedWordsByClass : Prop :=
  ∀ w : Word, decode w = none ↔
    w.toNat / 4096 = 0x0 ∧ w ≠ 0x00E0 ∧ w ≠ 0x00EE ∨
    w.toNat / 4096 = 0x5 ∧ w.toNat % 16 ≠ 0 ∨
    w.toNat / 4096 = 0x8 ∧ w.toNat % 16 ∈ [0x8, 0x9, 0xA, 0xB, 0xC, 0xD, 0xF] ∨
    w.toNat / 4096 = 0x9 ∧ w.toNat % 16 ≠ 0 ∨
    w.toNat / 4096 = 0xE ∧ w.toNat % 256 ∉ [0x9E, 0xA1] ∨
    w.toNat / 4096 = 0xF ∧ w.toNat % 256 ∉ [0x07, 0x0A, 0x15, 0x18, 0x1E, 0x29, 0x33, 0x55, 0x65]

/-- R95: one word of each family, written out from the table, decodes to the instruction it stands for (D4, log 9). -/
def Obligations.TableWordsDecode : Prop :=
  decode 0x00E0 = some .cls ∧ decode 0x2300 = some (.call 0x300) ∧ decode 0x4311 = some (.sneImm 3 0x11) ∧
  decode 0x8124 = some (.addReg 1 2) ∧ decode 0x812E = some (.shl 1 2) ∧ decode 0xF255 = some (.stRegs 2) ∧
  decode 0xD125 = some (.drw 1 2 5) ∧ decode 0xE2A1 = some (.sknp 2) ∧ decode 0xF50A = some (.ldVxK 5)

/-- R91: each field is the unsigned number in its bits, in terms of the word and in terms of its two bytes. That N, NN and
NNN are the low 4, 8 and 12 bits is an inference the spec marks as its own: the source names them "without giving their bit
positions; that they are the low 4, low 8 and low 12 bits follows from `OP`, `X`, `Y` occupying the three high nibbles". -/
def Obligations.FieldsAreTheirBits : Prop :=
  (∀ w : Word,
    (fieldOp w).toNat = w.toNat / 4096 ∧ (fieldX w).toNat = w.toNat / 256 % 16 ∧
    (fieldY w).toNat = w.toNat / 16 % 16 ∧ (fieldN w).toNat = w.toNat % 16 ∧
    (fieldNN w).toNat = w.toNat % 256 ∧ (fieldNNN w).toNat = w.toNat % 4096 ∧
    (fieldNN w).toNat = (fieldY w).toNat * 16 + (fieldN w).toNat ∧
    (fieldNNN w).toNat = (fieldX w).toNat * 256 + (fieldNN w).toNat) ∧
  (∀ b0 b1 : Byte,
    (wordOfBytes b0 b1).toNat = b0.toNat * 256 + b1.toNat ∧
    (fieldOp (wordOfBytes b0 b1)).toNat = b0.toNat / 16 ∧ (fieldX (wordOfBytes b0 b1)).toNat = b0.toNat % 16 ∧
    (fieldY (wordOfBytes b0 b1)).toNat = b1.toNat / 16 ∧ (fieldN (wordOfBytes b0 b1)).toNat = b1.toNat % 16 ∧
    fieldNN (wordOfBytes b0 b1) = b1 ∧
    (fieldNNN (wordOfBytes b0 b1)).toNat = b0.toNat % 16 * 256 + b1.toNat)

/-! ### Fetch and the step -/

/-- R68 (D6, log 10): a fetch below MEM_SIZE - 1 answers the two bytes big-endian, at any pc; at MEM_SIZE - 1 and above
it raises MemBounds with the first address outside memory. -/
def Obligations.FetchIsTwoBytesBigEndianOrBounds : Prop :=
  ∀ s : State,
    (s.pc.toNat + 1 < 4096 → ∃ w, s.fetch = .ok w ∧
      w.toNat = (s.mem.read s.pc.toNat).toNat * 256 + (s.mem.read (s.pc.toNat + 1)).toNat) ∧
    (s.pc.toNat = 4095 → s.fetch = .error (.memBounds 4096)) ∧
    (4096 ≤ s.pc.toNat → s.fetch = .error (.memBounds s.pc.toNat))

/-- R94: when no fault is latched, the host makes a `step` and the two bytes at the pc decode to an instruction, the step
is that instruction's `exec`, on the state with this `step` taken off those to come. Any other operation known to come is
made in the same way. That the operations to come are a field of the state is the model's choice (log 3). -/
def Obligations.StepRunsTheDecodedInstruction : Prop :=
  (∀ (s : State) (w : Word) (i : Instr), s.fault = none → s.fetch = .ok w → decode w = some i → s.AboutToStep →
    step s = exec i s.takeOp) ∧
  (∀ (s : State) (op : HostOp) (rest : List HostOp), s.schedule = op :: rest →
    step s = operate op { s with schedule := rest, opsMade := s.opsMade + 1 })

/-- R211 (D13): an unrecognized word advances the pc by 2, reports its word and address, and changes nothing else. -/
def Obligations.UnrecognizedWordIsADiagnosedNoOp : Prop :=
  ∀ (s : State) (w : Word), s.fault = none → s.AboutToStep → s.fetch = .ok w → decode w = none →
    ∃ t, step s = .next t ∧ t.pc = s.pc + 2 ∧ t.out = .ok false (some ⟨w, s.pc⟩) ∧
      Frame (fun p => p = .pc ∨ p = .out) s.takeOp t

/-- R68, R214, R216 (D6, D12; logs 1, 10): a fetch outside memory is the fatal entry, and the pc stays. -/
def Obligations.FetchFaultIsAFatalEntry : Prop :=
  ∀ s : State, s.fault = none → s.AboutToStep → 4095 ≤ s.pc.toNat →
    ∃ t, step s = .next t ∧ FatalEntry (.memBounds (max s.pc.toNat 4096)) s.takeOp t

/-- R216 (D12, log 1): a step that latches a fault changes nothing but FAULT and what it returns, whatever the instruction
was (and takes its operation off those to come, the model's own, log 3). -/
def Obligations.FatalFaultsArePrecise : Prop :=
  ∀ s t : State, s.fault = none → step s = .next t → t.fault ≠ none →
    s.AboutToStep ∧ ∃ c, FatalEntry c s.takeOp t

/-- R94, R216, R218 (D12, log 1): on a faulted CORE a `step` returns Fatal with the latched cause and changes nothing,
whatever stands at the pc. -/
def Obligations.FaultedStepChangesNothing : Prop :=
  ∀ (s : State) (c : Fault), s.fault = some c → s.AboutToStep →
    ∃ t, step s = .next t ∧ t.out = .fatal c ∧ Frame (fun p => p = .out) s.takeOp t

/-- R220, R231 (D12, D22; log 1): the latch is left by `reset` alone; every other operation keeps the latched cause. -/
def Obligations.OnlyResetClearsTheLatch : Prop :=
  ∀ (s t : State) (c : Fault), s.fault = some c → step s = .next t →
    t.fault = some c ∨ s.nextOp = .reset ∧ t.fault = none

/-- R210: which instruction raises which fault, when, and with what address (D6, D7, D11, D13; logs 1, 10, 12, 23). -/
def Obligations.FaultsComeOnlyFromTheirInstructions : Prop :=
  ∀ (i : Instr) (s t : State) (c : Fault), s.fault = none → exec i s = .next t → t.fault = some c →
    match c with
    | .stackOverflow a => (∃ nnn, i = .call nnn) ∧ s.sp.val = 16 ∧ a = s.pc.toNat
    | .stackUnderflow a => i = .ret ∧ s.sp.val = 0 ∧ a = s.pc.toNat
    | .memBounds a => 4096 ≤ a ∧ s.i.toNat ≤ a ∧ a < s.i.toNat + 16 ∧
        ((∃ x y n, i = .drw x y n) ∨ (∃ x, i = .ldB x ∨ i = .stRegs x ∨ i = .ldRegs x))
    | .storeProtect a => a < 0x200 ∧ a = s.i.toNat ∧ ∃ x, i = .ldB x ∨ i = .stRegs x

/-- R210, R216, R228: no step of the machine answers a host fault; it refuses exactly a `key_set` with an index above 15
(D18, log 17), and otherwise answers a next state. The form of the answer is the model's choice (log 1), and so is the
clause that the next state has the rest of the operations to come, again defined calls, and one more made (log 3). -/
def Obligations.EveryDefinedStepAnswersANextState : Prop :=
  ∀ s : State,
    (scheduleWellFormed s.schedule = true →
      ∃ t, step s = .next t ∧ t.schedule = s.schedule.tail ∧ scheduleWellFormed t.schedule = true ∧
        t.opsMade = s.opsMade + 1) ∧
    (∀ r, step s ≠ .fault r) ∧
    (∀ r, step s = .refused r ↔
      ∃ k b, s.schedule.head? = some (.keySet k b) ∧ 16 ≤ k ∧ r = .undefinedKeyIndex k)

/-! ### Invariants and reset -/

/-- The canonical form of memory (the model's own, log 21) is kept by every step, of whatever operation. -/
def Obligations.EveryStepKeepsMemoryCanonical : Prop :=
  ∀ s t : State, s.mem.wf → step s = .next t → t.mem.wf

/-- R61, R67, R70 (D2, D3, D7; logs 7, 8, 10): the glyph table and the low reserved region hold their reset contents for
ever: every step, of whatever operation, keeps them. -/
def Obligations.EveryStepKeepsLowMemoryIntact : Prop :=
  ∀ s t : State, s.LowMemoryIntact → step s = .next t → t.LowMemoryIntact

/-- Memory at reset has the canonical form and the low region intact (R35, R61, R62; logs 8, 21). That no operation is known
to come at reset, so that those to come are defined calls, is the model's choice (log 3) and no rule of the spec. -/
def Obligations.ResetMeetsTheInvariants : Prop :=
  State.reset.mem.wf ∧ State.reset.LowMemoryIntact ∧ scheduleWellFormed State.reset.schedule = true

/-- R35: the reset value of every piece of state (D2, D3, D12, D25; logs 7, 8, 16). -/
def Obligations.ResetValues : Prop :=
  (∀ x, State.reset.getV x = 0) ∧ State.reset.i = 0 ∧ State.reset.pc = 0x200 ∧ State.reset.sp = 0 ∧
  (∀ k < 16, State.reset.stack[k]? = some 0) ∧ State.reset.dt = 0 ∧ State.reset.st = 0 ∧
  (∀ x y, State.reset.fb.pixel x y = false) ∧ (∀ k, State.reset.keyDown k = false) ∧
  (∀ a, a < 80 → some (State.reset.mem.read a) = Config.glyphs[a]?) ∧
  (∀ a, 80 ≤ a → State.reset.mem.read a = 0) ∧ State.reset.fault = none

/-- R250: `reset` puts every piece of the CORE's state at its reset value, whatever the state was, a latched fault
included, and always succeeds. What is outside the CORE stays (the model's choice, log 26). -/
def Obligations.ResetOperationFromAnyState : Prop :=
  ∀ s : State, ∃ t, operate .reset s = .next t ∧
    (∀ p : Part, p ∉ [Part.params, .randIn, .randDrawn, .schedule, .opsMade] → p.Same State.reset t) ∧
    Part.Same s t .params ∧ Part.Same s t .randIn ∧ Part.Same s t .randDrawn ∧ Part.Same s t .schedule ∧
    Part.Same s t .opsMade

/-! ### Control transfer -/

/-- R122, R128: JP sets the pc to NNN and JP V0 to NNN plus V[0], not reduced to 12 bits; nothing else changes. -/
def Obligations.JumpsSetThePc : Prop :=
  ∀ (nnn : Addr12) (s : State),
    (∃ t, exec (.jp nnn) s = .next t ∧ t.pc.toNat = nnn.toNat ∧ t.out = .ok false none ∧
      Frame (fun p => p = .pc ∨ p = .out) s t) ∧
    (∃ t, exec (.jpV0 nnn) s = .next t ∧ t.pc.toNat = nnn.toNat + (s.getV 0).toNat ∧ t.out = .ok false none ∧
      Frame (fun p => p = .pc ∨ p = .out) s t) ∧
    decode (0x1#4 ++ nnn) = some (.jp nnn) ∧ decode (0xB#4 ++ nnn) = some (.jpV0 nnn)

/-- A skip: the pc advances by 4 when the condition holds, else by 2, modulo 65536; nothing else changes (R120). -/
def SkipsWhen (i : Instr) (s : State) (condition : Prop) : Prop :=
  ∃ t, exec i s = .next t ∧ (condition → t.pc.toNat = (s.pc.toNat + 4) % 65536) ∧
    (¬condition → t.pc.toNat = (s.pc.toNat + 2) % 65536) ∧ t.out = .ok false none ∧
    Frame (fun p => p = .pc ∨ p = .out) s t

/-- R124 to R127: the four register skips, with their encodings. -/
def Obligations.RegisterSkips : Prop :=
  ∀ (x y : RegIdx) (nn : Byte) (s : State),
    SkipsWhen (.seImm x nn) s ((s.getV x).toNat = nn.toNat) ∧
    SkipsWhen (.sneImm x nn) s ((s.getV x).toNat ≠ nn.toNat) ∧
    SkipsWhen (.seReg x y) s ((s.getV x).toNat = (s.getV y).toNat) ∧
    SkipsWhen (.sneReg x y) s ((s.getV x).toNat ≠ (s.getV y).toNat) ∧
    decode (0x3#4 ++ x ++ nn) = some (.seImm x nn) ∧ decode (0x4#4 ++ x ++ nn) = some (.sneImm x nn) ∧
    decode (0x5#4 ++ x ++ y ++ 0x0#4) = some (.seReg x y) ∧ decode (0x9#4 ++ x ++ y ++ 0x0#4) = some (.sneReg x y)

/-- R123, R212, R216 (D11, D12; logs 1, 12): CALL with a slot free pushes its own address, raises SP and jumps; with all
sixteen in use it is the fatal entry StackOverflow. -/
def Obligations.CallPushesItsAddressOrOverflows : Prop :=
  ∀ (nnn : Addr12) (s : State),
    (s.sp.val < 16 → ∃ t, exec (.call nnn) s = .next t ∧ t.stack[s.sp.val]? = some s.pc ∧
      t.sp.val = s.sp.val + 1 ∧ t.pc.toNat = nnn.toNat ∧ t.out = .ok false none ∧
      Frame (fun p => p = .stack s.sp.val ∨ p = .sp ∨ p = .pc ∨ p = .out) s t) ∧
    (s.sp.val = 16 → ∃ t, exec (.call nnn) s = .next t ∧ FatalEntry (.stackOverflow s.pc.toNat) s t)

/-- R121, R213, R216 (D11, D12; logs 1, 12): RET with a slot in use lowers SP and resumes 2 after the saved address, the
slot keeping its value; with none in use it is the fatal entry StackUnderflow. -/
def Obligations.ReturnPopsOrUnderflows : Prop :=
  ∀ s : State,
    (0 < s.sp.val → ∃ t w, exec .ret s = .next t ∧ s.stack[s.sp.val - 1]? = some w ∧ t.sp.val = s.sp.val - 1 ∧
      t.pc.toNat = (w.toNat + 2) % 65536 ∧ t.out = .ok false none ∧
      Frame (fun p => p = .sp ∨ p = .pc ∨ p = .out) s t) ∧
    (s.sp.val = 0 → ∃ t, exec .ret s = .next t ∧ FatalEntry (.stackUnderflow s.pc.toNat) s t)

/-- R121, R123: a CALL and the RET after it leave the pc 2 after the CALL and the depth as it was; apart from the slot
the CALL used, nothing else has changed. -/
def Obligations.CallThenReturnResumesAfterTheCall : Prop :=
  ∀ (nnn : Addr12) (s : State), s.sp.val < 16 →
    ∃ t u, exec (.call nnn) s = .next t ∧ exec .ret t = .next u ∧ u.pc = s.pc + 2 ∧ u.sp = s.sp ∧
      Frame (fun p => p = .stack s.sp.val ∨ p = .pc ∨ p = .out) s u

/-! ### Register load, arithmetic, logic, shift, random -/

/-- The instruction completes at pc + 2 with display_changed false, leaves `value` (as a number) in V[x], and changes
no other part. -/
def LeavesInV (i : Instr) (s : State) (x : RegIdx) (value : Nat) : Prop :=
  ∃ t, exec i s = .next t ∧ (t.getV x).toNat = value ∧ EndsAt t (s.pc + 2) false ∧
    Frame (fun p => p = .v x ∨ p = .pc ∨ p = .out) s t

/-- The instruction completes at pc + 2 with display_changed false, leaves `flag` in V[15] and, where x is not 15, `value`
in V[x], and changes no other part: when x is 15 the flag wins. -/
def LeavesWithFlag (i : Instr) (s : State) (x : RegIdx) (value flag : Nat) : Prop :=
  ∃ t, exec i s = .next t ∧ (x ≠ 15 → (t.getV x).toNat = value) ∧ (t.getV 15).toNat = flag ∧
    EndsAt t (s.pc + 2) false ∧ Frame (fun p => p = .v x ∨ p = .v 15 ∨ p = .pc ∨ p = .out) s t

/-- R140, R141, R142: load immediate, add immediate (modulo 256, no carry recorded), copy; with their encodings. -/
def Obligations.LoadAddImmediateAndCopy : Prop :=
  ∀ (x y : RegIdx) (nn : Byte) (s : State),
    LeavesInV (.ldImm x nn) s x nn.toNat ∧
    LeavesInV (.addImm x nn) s x (((s.getV x).toNat + nn.toNat) % 256) ∧
    LeavesInV (.ldReg x y) s x (s.getV y).toNat ∧
    decode (0x6#4 ++ x ++ nn) = some (.ldImm x nn) ∧ decode (0x7#4 ++ x ++ nn) = some (.addImm x nn) ∧
    decode (0x8#4 ++ x ++ y ++ 0x0#4) = some (.ldReg x y)

/-- R143, R144, R145: OR, AND, XOR, without a flag effect; with their encodings. -/
def Obligations.BitwiseOperations : Prop :=
  ∀ (x y : RegIdx) (s : State),
    LeavesInV (.orReg x y) s x ((s.getV x).toNat ||| (s.getV y).toNat) ∧
    LeavesInV (.andReg x y) s x ((s.getV x).toNat &&& (s.getV y).toNat) ∧
    LeavesInV (.xorReg x y) s x ((s.getV x).toNat ^^^ (s.getV y).toNat) ∧
    decode (0x8#4 ++ x ++ y ++ 0x1#4) = some (.orReg x y) ∧ decode (0x8#4 ++ x ++ y ++ 0x2#4) = some (.andReg x y) ∧
    decode (0x8#4 ++ x ++ y ++ 0x3#4) = some (.xorReg x y)

/-- R146: the register add leaves the sum modulo 256 and the carry, and the carry always wins; with its encoding. -/
def Obligations.AddWithCarry : Prop :=
  ∀ (x y : RegIdx) (s : State),
    LeavesWithFlag (.addReg x y) s x (((s.getV x).toNat + (s.getV y).toNat) % 256)
      (if (s.getV x).toNat + (s.getV y).toNat > 255 then 1 else 0) ∧
    decode (0x8#4 ++ x ++ y ++ 0x4#4) = some (.addReg x y)

/-- R147, R149: the two subtractions leave the difference modulo 256 and 1 for no borrow. That the flag wins when X = 15
is decision D10 of the spec (R23, R153; log 11). -/
def Obligations.SubtractionsWithBorrow : Prop :=
  ∀ (x y : RegIdx) (s : State),
    LeavesWithFlag (.subReg x y) s x (((s.getV x).toNat + 256 - (s.getV y).toNat) % 256)
      (if (s.getV x).toNat ≥ (s.getV y).toNat then 1 else 0) ∧
    LeavesWithFlag (.subnReg x y) s x (((s.getV y).toNat + 256 - (s.getV x).toNat) % 256)
      (if (s.getV y).toNat ≥ (s.getV x).toNat then 1 else 0)

/-- R148, R150: the shifts of the source value by one and the bit shifted out, for both values of SHIFT_SOURCE (an OPEN
parameter, D9, log 5); that the flag wins when X = 15 is D10 (log 11). -/
def Obligations.ShiftsByOne : Prop :=
  ∀ (x y : RegIdx) (s : State) (v : Nat),
    v = (match s.params.shiftSource with | .vx => (s.getV x).toNat | .vy => (s.getV y).toNat) →
    LeavesWithFlag (.shr x y) s x (v / 2) (v % 2) ∧
    LeavesWithFlag (.shl x y) s x (2 * v % 256) (v / 128)

/-- R151, R232 (D21, log 4): RND takes exactly one byte from the random source and leaves it ANDed with the mask: the next
byte supplied, else the free value, of which nothing is said; so the result never has a bit outside the mask. -/
def Obligations.RandomByteIsMasked : Prop :=
  ∀ (x : RegIdx) (nn : Byte) (s : State),
    ∃ t, exec (.rnd x nn) s = .next t ∧
      (∀ r rest, s.randIn = r :: rest → t.getV x = r &&& nn ∧ t.randIn = rest) ∧
      (s.randIn = [] → t.getV x = Config.randomByte s.randDrawn &&& nn ∧ t.randIn = []) ∧
      t.randDrawn = s.randDrawn + 1 ∧ t.getV x &&& ~~~nn = 0 ∧ EndsAt t (s.pc + 2) false ∧
      Frame (fun p => p = .v x ∨ p = .randIn ∨ p = .randDrawn ∨ p = .pc ∨ p = .out) s t

/-! ### Index register and memory -/

/-- The instruction completes at pc + 2 with display_changed false, leaves `value` (as a number) in I, and changes no
other part. -/
def LeavesInI (i : Instr) (s : State) (value : Nat) : Prop :=
  ∃ t, exec i s = .next t ∧ t.i.toNat = value ∧ EndsAt t (s.pc + 2) false ∧
    Frame (fun p => p = .i ∨ p = .pc ∨ p = .out) s t

/-- R160, R161, R162: the three instructions that write I, none with a flag effect; with their encodings. -/
def Obligations.IndexRegisterWrites : Prop :=
  ∀ (x : RegIdx) (nnn : Addr12) (s : State),
    LeavesInI (.ldI nnn) s nnn.toNat ∧
    LeavesInI (.addI x) s ((s.i.toNat + (s.getV x).toNat) % 65536) ∧
    LeavesInI (.ldF x) s (5 * ((s.getV x).toNat % 16)) ∧
    decode (0xA#4 ++ nnn) = some (.ldI nnn) ∧ decode (0xF#4 ++ x ++ 0x1E#8) = some (.addI x) ∧
    decode (0xF#4 ++ x ++ 0x29#8) = some (.ldF x)

/-- R163 (D6, D7, log 10): with its three cells in the writable region LD B stores hundreds, tens and units at I, I + 1,
I + 2, and changes no other byte and no register. -/
def Obligations.BcdStoresThreeDigits : Prop :=
  ∀ (x : RegIdx) (s : State), 0x200 ≤ s.i.toNat → s.i.toNat + 2 < 4096 →
    ∃ t, exec (.ldB x) s = .next t ∧
      (t.mem.read s.i.toNat).toNat = (s.getV x).toNat / 100 ∧
      (t.mem.read (s.i.toNat + 1)).toNat = (s.getV x).toNat / 10 % 10 ∧
      (t.mem.read (s.i.toNat + 2)).toNat = (s.getV x).toNat % 10 ∧ EndsAt t (s.pc + 2) false ∧
      Frame (fun p => (∃ k < 3, p = .byte (s.i.toNat + k)) ∨ p = .pc ∨ p = .out) s t

/-- R164 (D6, D7, log 10): with its cells in the writable region LD [I],Vx stores V[0] to V[X] from I upward; I, every
register and every other byte stay. -/
def Obligations.BulkStore : Prop :=
  ∀ (x : RegIdx) (s : State), 0x200 ≤ s.i.toNat → s.i.toNat + x.toNat < 4096 →
    ∃ t, exec (.stRegs x) s = .next t ∧
      (∀ k : RegIdx, k.toNat ≤ x.toNat → t.mem.read (s.i.toNat + k.toNat) = s.getV k) ∧
      EndsAt t (s.pc + 2) false ∧
      Frame (fun p => (∃ k ≤ x.toNat, p = .byte (s.i.toNat + k)) ∨ p = .pc ∨ p = .out) s t

/-- R165 (D6, log 10): with its cells inside memory LD Vx,[I] loads V[0] to V[X] from I upward; I, every other register
and all of memory stay. -/
def Obligations.BulkLoad : Prop :=
  ∀ (x : RegIdx) (s : State), s.i.toNat + x.toNat < 4096 →
    ∃ t, exec (.ldRegs x) s = .next t ∧
      (∀ k : RegIdx, k.toNat ≤ x.toNat → t.getV k = s.mem.read (s.i.toNat + k.toNat)) ∧
      EndsAt t (s.pc + 2) false ∧
      Frame (fun p => (∃ k : RegIdx, k.toNat ≤ x.toNat ∧ p = .v k) ∨ p = .pc ∨ p = .out) s t

/-- R165: a bulk load with the same X from where a bulk store left I restores the registers, whatever was done to them in
between, because the store did not move I. -/
def Obligations.BulkStoreThenLoadRestores : Prop :=
  ∀ (x : RegIdx) (s t u : State), 0x200 ≤ s.i.toNat → s.i.toNat + x.toNat < 4096 →
    exec (.stRegs x) s = .next t → u.mem = t.mem → u.i = t.i →
    ∃ r, exec (.ldRegs x) u = .next r ∧ ∀ k : RegIdx, k.toNat ≤ x.toNat → r.getV k = s.getV k

/-- R166, R214, R215, R216 (D6, D7, D12; logs 1, 10): a store below LOAD_OFFSET or past the end of memory, and a load or
sprite read past the end, is the fatal entry with the lowest failing address, and nothing is transferred. -/
def Obligations.MemoryOperandFaults : Prop :=
  ∀ (x y : RegIdx) (n : BitVec 4) (s : State),
    (s.i.toNat < 0x200 → ∃ t, exec (.ldB x) s = .next t ∧ FatalEntry (.storeProtect s.i.toNat) s t) ∧
    (4096 ≤ s.i.toNat + 2 → ∃ t, exec (.ldB x) s = .next t ∧ FatalEntry (.memBounds (max s.i.toNat 4096)) s t) ∧
    (s.i.toNat < 0x200 → ∃ t, exec (.stRegs x) s = .next t ∧ FatalEntry (.storeProtect s.i.toNat) s t) ∧
    (4096 ≤ s.i.toNat + x.toNat → ∃ t, exec (.stRegs x) s = .next t ∧
      FatalEntry (.memBounds (max s.i.toNat 4096)) s t) ∧
    (4096 ≤ s.i.toNat + x.toNat → ∃ t, exec (.ldRegs x) s = .next t ∧
      FatalEntry (.memBounds (max s.i.toNat 4096)) s t) ∧
    (0 < n.toNat → 4096 ≤ s.i.toNat + n.toNat - 1 → ∃ t, exec (.drw x y n) s = .next t ∧
      FatalEntry (.memBounds (max s.i.toNat 4096)) s t)

/-- R74, R262: a store is seen by the very next fetch: where LD [I],Vx covers the two bytes after itself, the next fetch
answers the registers it stored there, the first in the high byte. -/
def Obligations.StoreIsSeenByTheNextFetch : Prop :=
  ∀ (x j k : RegIdx) (s t : State), s.fault = none → exec (.stRegs x) s = .next t → t.fault = none →
    s.pc.toNat + 2 = s.i.toNat + j.toNat → k.toNat = j.toNat + 1 → k.toNat ≤ x.toNat →
    t.fetch = .ok (wordOfBytes (s.getV j) (s.getV k))

/-! ### Display -/

/-- R180: CLS unsets every pixel and reports display_changed, whatever was on the screen; with its encoding. -/
def Obligations.ClearScreenUnsetsEveryPixel : Prop :=
  (∀ s : State, ∃ t, exec .cls s = .next t ∧ (∀ x y, t.fb.pixel x y = false) ∧ EndsAt t (s.pc + 2) true ∧
    Frame (fun p => (∃ x y, p = .pixel x y) ∨ p = .pc ∨ p = .out) s t) ∧
  decode 0x00E0 = some .cls

/-- R182, R183, R184 (a) and (b): a draw inside memory, for every height 0 to 15 and both values of SPRITE_EDGE (OPEN, D8,
log 5), turns over exactly the pixels some set sprite bit lands on, sets V[15] to whether one of those was set, and
changes nothing else. Bit order D15 (log 14), height 0 D23 (log 15), flag last D10 (log 11). -/
def Obligations.DrawIsXorWithTheSpriteMask : Prop :=
  ∀ (x y : RegIdx) (n : BitVec 4) (s : State), n.toNat = 0 ∨ s.i.toNat + n.toNat ≤ 4096 →
    ∃ t, exec (.drw x y n) s = .next t ∧
      (∀ px py, SpriteHits s x y n.toNat px py → t.fb.pixel px py = !s.fb.pixel px py) ∧
      (∀ px py, ¬SpriteHits s x y n.toNat px py → t.fb.pixel px py = s.fb.pixel px py) ∧
      ((∃ px py, SpriteHits s x y n.toNat px py ∧ s.fb.pixel px py = true) → t.getV 15 = 1) ∧
      (¬(∃ px py, SpriteHits s x y n.toNat px py ∧ s.fb.pixel px py = true) → t.getV 15 = 0) ∧
      EndsAt t (s.pc + 2) true ∧
      Frame (fun p => (∃ px py, p = .pixel px py) ∨ p = .v 15 ∨ p = .pc ∨ p = .out) s t

/-- R184 (c) and (d): drawing the same sprite twice restores the framebuffer exactly; the second draw leaves V[15] = 1
exactly when some pixel of the mask was unset at first (D8, D15). -/
def Obligations.DrawingTwiceRestoresTheScreen : Prop :=
  ∀ (x y : RegIdx) (n : BitVec 4) (s t : State), x ≠ 15 → y ≠ 15 → n.toNat = 0 ∨ s.i.toNat + n.toNat ≤ 4096 →
    exec (.drw x y n) s = .next t →
    ∃ u, exec (.drw x y n) t = .next u ∧ u.fb = s.fb ∧
      (u.getV 15 = 1 ↔ ∃ px py, SpriteHits s x y n.toNat px py ∧ s.fb.pixel px py = false)

/-- R183: with the sprite wholly on the screen the two values of SPRITE_EDGE give the same pixels and the same flag. -/
def Obligations.EdgeModesAgreeOnScreen : Prop :=
  ∀ (x y : RegIdx) (n : BitVec 4) (s t : State) (e : SpriteEdge),
    (s.getV x).toNat + 7 ≤ 63 → (s.getV y).toNat + n.toNat ≤ 32 → exec (.drw x y n) s = .next t →
    exec (.drw x y n) { s with params := { s.params with spriteEdge := e } } =
      .next { t with params := { t.params with spriteEdge := e } }

/-! ### Keypad and timers -/

/-- R190, R191: the key skips read the key of the register's low nibble; with their encodings. -/
def Obligations.KeySkips : Prop :=
  ∀ (x : RegIdx) (s : State),
    SkipsWhen (.skp x) s (s.keys[(s.getV x).toNat % 16]? = some true) ∧
    SkipsWhen (.sknp x) s (s.keys[(s.getV x).toNat % 16]? = some false) ∧
    decode (0xE#4 ++ x ++ 0x9E#8) = some (.skp x) ∧ decode (0xE#4 ++ x ++ 0xA1#8) = some (.sknp x)

/-- R193: with a key pressed LD Vx,K leaves the least pressed index; with none it changes nothing, the pc included. -/
def Obligations.KeyWaitTakesTheLeastKeyOrParks : Prop :=
  ∀ (x : RegIdx) (s : State),
    (∀ k, k < 16 → s.keys[k]? = some true → (∀ j < k, s.keys[j]? = some false) → LeavesInV (.ldVxK x) s x k) ∧
    ((∀ k < 16, s.keys[k]? = some false) →
      ∃ t, exec (.ldVxK x) s = .next t ∧ t.out = .ok false none ∧ Frame (fun p => p = .out) s t) ∧
    decode (0xF#4 ++ x ++ 0x0A#8) = some (.ldVxK x)

/-- R192, R194, R195: the timer transfers, each a plain copy; with their encodings. -/
def Obligations.TimerTransfers : Prop :=
  ∀ (x : RegIdx) (s : State),
    LeavesInV (.ldVxDt x) s x s.dt.toNat ∧
    (∃ t, exec (.ldDtVx x) s = .next t ∧ t.dt = s.getV x ∧ EndsAt t (s.pc + 2) false ∧
      Frame (fun p => p = .dt ∨ p = .pc ∨ p = .out) s t) ∧
    (∃ t, exec (.ldStVx x) s = .next t ∧ t.st = s.getV x ∧ EndsAt t (s.pc + 2) false ∧
      Frame (fun p => p = .st ∨ p = .pc ∨ p = .out) s t) ∧
    decode (0xF#4 ++ x ++ 0x07#8) = some (.ldVxDt x) ∧ decode (0xF#4 ++ x ++ 0x15#8) = some (.ldDtVx x) ∧
    decode (0xF#4 ++ x ++ 0x18#8) = some (.ldStVx x)

/-! ### Host operations -/

/-- R224: a tick takes each timer down by exactly 1, never below 0, ends the sound cue exactly when ST was 1, and touches
nothing else. -/
def Obligations.TickCountsBothTimersDown : Prop :=
  ∀ s : State, ∃ t, operate .tick s = .next t ∧ t.dt.toNat = s.dt.toNat - 1 ∧ t.st.toNat = s.st.toNat - 1 ∧
    (s.st.toNat = 1 → t.out = .ticked (some .soundCueEnded)) ∧ (s.st.toNat ≠ 1 → t.out = .ticked none) ∧
    Frame (fun p => p = .dt ∨ p = .st ∨ p = .out) s t

/-- R224, R258: after n ticks the delay timer holds what it held less n, and 0 from then on. -/
def Obligations.TicksReachZeroAndStay : Prop :=
  ∀ (n : Nat) (s : State),
    ((State.hostTick^[n]) s).dt.toNat = s.dt.toNat - n ∧ ((State.hostTick^[n]) s).st.toNat = s.st.toNat - n

/-- R227: a tick and an instruction commute, but for the three that name a timer: ticking first and ticking afterwards
leave the same state, apart from what the last operation returned. -/
def Obligations.TickCommutesWithOtherInstructions : Prop :=
  ∀ (i : Instr) (s t : State), (∀ x, i ≠ .ldVxDt x ∧ i ≠ .ldDtVx x ∧ i ≠ .ldStVx x) → exec i s = .next t →
    ∃ u, exec i s.hostTick = .next u ∧ Frame (fun p => p = .out) t.hostTick u

/-- R228: key_set changes one key and nothing else, and returns nothing; an index above 15 is no defined call (D18, log 17).
The refusal is the model's form of "gives it no step". -/
def Obligations.KeySetChangesOneKey : Prop :=
  ∀ (k : Nat) (pressed : Bool) (s : State),
    (k < 16 → ∃ t, operate (.keySet k pressed) s = .next t ∧ t.keyDown k = pressed ∧ t.out = .nothing ∧
      Frame (fun p => p = .key k ∨ p = .out) s t) ∧
    (16 ≤ k → operate (.keySet k pressed) s = .refused (.undefinedKeyIndex k))

/-- R251, R252 (D17, log 19): a sequence that fits is copied from LOAD_OFFSET upward and nothing else changes; one that
does not fit leaves the state and reports the failure. -/
def Obligations.LoadCopiesTheProgramOrFails : Prop :=
  ∀ (bytes : List Byte) (s : State),
    (bytes.length ≤ 3584 → ∃ t, operate (.load bytes) s = .next t ∧ t.out = .loaded true ∧
      (∀ k, k < bytes.length → some (t.mem.read (0x200 + k)) = bytes[k]?) ∧
      Frame (fun p => (∃ k < bytes.length, p = .byte (0x200 + k)) ∨ p = .out) s t) ∧
    (3584 < bytes.length → ∃ t, operate (.load bytes) s = .next t ∧ t.out = .loaded false ∧
      Frame (fun p => p = .out) s t)

/-- R230: fb_read returns all of the framebuffer as it is and changes no state; a step reports display_changed exactly for
CLS and DRW, a DRW that raises its fault (R216) returning Fatal instead. -/
def Obligations.FrameReadAndDisplayChanged : Prop :=
  (∀ s : State, ∃ t, operate .fbRead s = .next t ∧ t.out = .frame s.fb ∧ Frame (fun p => p = .out) s t) ∧
  (∀ (i : Instr) (s t : State) (d : Option Diagnostic), exec i s = .next t → t.out = .ok true d →
    i = .cls ∨ ∃ x y n, i = .drw x y n) ∧
  (∀ (i : Instr) (s t : State), (i = .cls ∨ ∃ x y n, i = .drw x y n) → exec i s = .next t →
    t.out = .ok true none ∨ ∃ c, t.out = .fatal c)

/-! ### Whole-machine rules -/

/-- R24, R28 to R31, R69: which instruction can change which part of the state: whatever is not listed for a part leaves it
alone. That only RND takes from the random source is R151 and R232; how the source is kept (`randIn`, `randDrawn`) is the
model's choice (log 4). That no instruction changes `params`, `schedule` or `opsMade` speaks of fields of the model's own
(logs 5 and 3). -/
def Obligations.OnlyTheNamedInstructionsChangeAPart : Prop :=
  ∀ (i : Instr) (s t : State), exec i s = .next t →
    (∀ k, t.keyDown k = s.keyDown k) ∧ t.params = s.params ∧ t.schedule = s.schedule ∧ t.opsMade = s.opsMade ∧
    (t.i ≠ s.i → ∃ x nnn, i = .ldI nnn ∨ i = .addI x ∨ i = .ldF x) ∧
    (t.dt ≠ s.dt → ∃ x, i = .ldDtVx x) ∧ (t.st ≠ s.st → ∃ x, i = .ldStVx x) ∧
    (t.sp ≠ s.sp → i = .ret ∨ ∃ nnn, i = .call nnn) ∧ (t.stack ≠ s.stack → ∃ nnn, i = .call nnn) ∧
    (t.fb ≠ s.fb → i = .cls ∨ ∃ x y n, i = .drw x y n) ∧
    (t.mem ≠ s.mem → ∃ x, i = .ldB x ∨ i = .stRegs x) ∧
    (t.randDrawn ≠ s.randDrawn ∨ t.randIn ≠ s.randIn → ∃ x nn, i = .rnd x nn)

/-- R22, R257: V[15] changes only by the six instructions of the flag table, by one that names it as its destination, or by
a bulk load of all sixteen registers. -/
def Obligations.FlagRegisterChangesOnlyByItsWriters : Prop :=
  ∀ (i : Instr) (s t : State), exec i s = .next t → t.getV 15 ≠ s.getV 15 →
    (∃ x y n, i = .addReg x y ∨ i = .subReg x y ∨ i = .subnReg x y ∨ i = .shr x y ∨ i = .shl x y ∨ i = .drw x y n) ∨
    (∃ y nn, i = .ldImm 15 nn ∨ i = .addImm 15 nn ∨ i = .ldReg 15 y ∨ i = .orReg 15 y ∨ i = .andReg 15 y ∨
      i = .xorReg 15 y ∨ i = .rnd 15 nn ∨ i = .ldVxDt 15 ∨ i = .ldVxK 15 ∨ i = .ldRegs 15)

/-- R26: the pc after every instruction: the table's value where nothing is raised, the instruction's own address where a
fault is. -/
def Obligations.PcAfterEveryInstruction : Prop :=
  ∀ (i : Instr) (s t : State), s.fault = none → exec i s = .next t →
    (t.fault = none → t.pc = pcAfter s i) ∧ (t.fault ≠ none → t.pc = s.pc)

/-- R255 (D24): a finished CORE, resting on a JP to itself, is a fixed point of `step`: the next step changes nothing but
what it returns, and the CORE is still finished. -/
def Obligations.FinishedIsAFixedPoint : Prop :=
  ∀ s : State, s.Finished → s.AboutToStep →
    ∃ t, step s = .next t ∧ Frame (fun p => p = .out) s.takeOp t ∧ t.Finished

/-! ### The host's operations -/

/-- R6, R7, R254 (D20, D18): the operation made next is the one known to come, and otherwise some defined call; and what is
free there shuts no defined call out. Nothing says which it is: the free operation is the model's way to take every
interleaving (log 3). -/
def Obligations.TheHostMakesAnyDefinedCall : Prop :=
  (∀ (s : State) (op : HostOp) (rest : List HostOp), s.schedule = op :: rest → s.nextOp = op) ∧
  (∀ s : State, s.schedule = [] → HostOp.WellFormed s.nextOp = true) ∧
  (∀ op : HostOp, HostOp.WellFormed op = true → definedCall op = op)

/-- R6, R7 (D20): whatever finite sequence of defined calls is known to come, in whatever order and ratio, the machine makes
all of it, from any state, a faulted one included, and then has what comes later still to come. The two fields the
conclusion reads are the model's own (log 3). -/
def Obligations.EveryInterleavingIsRunToItsEnd : Prop :=
  ∀ (ops later : List HostOp) (s : State), scheduleWellFormed ops = true →
    ∃ t : State, Sys2Proof.core.run ops.length (s.setSchedule (ops ++ later)) = .next t ∧
      t.schedule = later ∧ t.opsMade = s.opsMade + ops.length

/-- R7, R196, R258 (D20): a tick or a key change may fall between any two steps: with it first to come, the step after it
reads what it left. Here a key change before a key wait, and a tick before a read of the delay timer. -/
def Obligations.KeyAndTimerReadsSeeWhatCameBetween : Prop :=
  ∀ (x : RegIdx) (s : State), s.fault = none →
    (∀ (k : Nat) (later : List HostOp), k < 16 → s.fetch = .ok (encode (.ldVxK x)) → (∀ j < 16, s.keyDown j = false) →
      s.schedule = .keySet k true :: .step :: later →
      ∃ t u, step s = .next t ∧ step t = .next u ∧ (u.getV x).toNat = k ∧ u.pc = s.pc + 2 ∧ u.schedule = later) ∧
    (∀ later : List HostOp, s.fetch = .ok (encode (.ldVxDt x)) → s.schedule = .tick :: .step :: later →
      ∃ t u, step s = .next t ∧ step t = .next u ∧ (u.getV x).toNat = s.dt.toNat - 1 ∧ u.pc = s.pc + 2 ∧
        u.schedule = later)
end

