-- ==== Sys2Proof/Laws/Decode.lean ====
section
/-! SUPPORT. The fields of an encoded word, format by format (30_encoding.md R91, R92), and of a fetched word. -/

namespace Sys2Proof

section NNN
variable (op : BitVec 4) (nnn : Addr12)

@[simp] theorem fieldOp_encNNN : fieldOp (encNNN op nnn) = op := by
  show (op ++ nnn : BitVec (4 + 12)).extractLsb' 12 4 = op
  ext i hi
  simp only [BitVec.getElem_extractLsb', BitVec.getLsbD_append]
  interval_cases i <;> simp

@[simp] theorem fieldNNN_encNNN : fieldNNN (encNNN op nnn) = nnn := by
  show (op ++ nnn : BitVec (4 + 12)).extractLsb' 0 12 = nnn
  ext i hi
  simp only [BitVec.getElem_extractLsb', BitVec.getLsbD_append]
  interval_cases i <;> simp

end NNN

section XNN
variable (op x : BitVec 4) (nn : Byte)

@[simp] theorem fieldOp_encXNN : fieldOp (encXNN op x nn) = op := by
  show (op ++ x ++ nn : BitVec (4 + 4 + 8)).extractLsb' 12 4 = op
  ext i hi
  simp only [BitVec.getElem_extractLsb', BitVec.getLsbD_append]
  interval_cases i <;> simp

@[simp] theorem fieldX_encXNN : fieldX (encXNN op x nn) = x := by
  show (op ++ x ++ nn : BitVec (4 + 4 + 8)).extractLsb' 8 4 = x
  ext i hi
  simp only [BitVec.getElem_extractLsb', BitVec.getLsbD_append]
  interval_cases i <;> simp

@[simp] theorem fieldNN_encXNN : fieldNN (encXNN op x nn) = nn := by
  show (op ++ x ++ nn : BitVec (4 + 4 + 8)).extractLsb' 0 8 = nn
  ext i hi
  simp only [BitVec.getElem_extractLsb', BitVec.getLsbD_append]
  interval_cases i <;> simp

end XNN

section XYN
variable (op x y n : BitVec 4)

@[simp] theorem fieldOp_encXYN : fieldOp (encXYN op x y n) = op := by
  show (op ++ x ++ y ++ n : BitVec (4 + 4 + 4 + 4)).extractLsb' 12 4 = op
  ext i hi
  simp only [BitVec.getElem_extractLsb', BitVec.getLsbD_append]
  interval_cases i <;> simp

@[simp] theorem fieldX_encXYN : fieldX (encXYN op x y n) = x := by
  show (op ++ x ++ y ++ n : BitVec (4 + 4 + 4 + 4)).extractLsb' 8 4 = x
  ext i hi
  simp only [BitVec.getElem_extractLsb', BitVec.getLsbD_append]
  interval_cases i <;> simp

@[simp] theorem fieldY_encXYN : fieldY (encXYN op x y n) = y := by
  show (op ++ x ++ y ++ n : BitVec (4 + 4 + 4 + 4)).extractLsb' 4 4 = y
  ext i hi
  simp only [BitVec.getElem_extractLsb', BitVec.getLsbD_append]
  interval_cases i <;> simp

@[simp] theorem fieldN_encXYN : fieldN (encXYN op x y n) = n := by
  show (op ++ x ++ y ++ n : BitVec (4 + 4 + 4 + 4)).extractLsb' 0 4 = n
  ext i hi
  simp only [BitVec.getElem_extractLsb', BitVec.getLsbD_append]
  interval_cases i <;> simp

end XYN

/-- A word is its two bytes, high byte first, read back (20_memory.md R63). -/
theorem wordOfBytes_bytesOfWord (w : Word) : wordOfBytes (w.extractLsb' 8 8) (w.extractLsb' 0 8) = w := by
  show (w.extractLsb' 8 8 ++ w.extractLsb' 0 8 : BitVec (8 + 8)) = w
  ext i hi
  simp only [BitVec.getElem_append, BitVec.getElem_extractLsb']
  split
  · rw [Nat.zero_add]; exact BitVec.getLsbD_eq_getElem (by omega)
  · have e : 8 + (i - 8) = i := by omega
    rw [e]; exact BitVec.getLsbD_eq_getElem (by omega)

/-- The table's word decodes as the word it stands for. -/
theorem decodeTableWord_eq (nbits w : Nat) : decodeTableWord nbits w = decode (tableWord nbits w) := by
  simp only [decodeTableWord, bytesOfWord, decodeBytes, wordOfBytes_bytesOfWord]
  cases decode (tableWord nbits w) <;> rfl

end Sys2Proof
end

