-- ==== Sys2Proof/Laws/State.lean ====
section
/-! SUPPORT. One lemma per field per named update of the state, true by rfl, so that no proof unfolds a record update;
then what the observers (registers, keys, base address) give after each update. -/

namespace Sys2Proof.Machine

/-! ### setV -/

@[simp] theorem State.setV_v (s : State) (x : RegIdx) (b : Byte) : (s.setV x b).v = s.v.set x.toNat b x.isLt := rfl
@[simp] theorem State.setV_i (s : State) (x : RegIdx) (b : Byte) : (s.setV x b).i = s.i := rfl
@[simp] theorem State.setV_pc (s : State) (x : RegIdx) (b : Byte) : (s.setV x b).pc = s.pc := rfl
@[simp] theorem State.setV_stack (s : State) (x : RegIdx) (b : Byte) : (s.setV x b).stack = s.stack := rfl
@[simp] theorem State.setV_sp (s : State) (x : RegIdx) (b : Byte) : (s.setV x b).sp = s.sp := rfl
@[simp] theorem State.setV_dt (s : State) (x : RegIdx) (b : Byte) : (s.setV x b).dt = s.dt := rfl
@[simp] theorem State.setV_st (s : State) (x : RegIdx) (b : Byte) : (s.setV x b).st = s.st := rfl
@[simp] theorem State.setV_fb (s : State) (x : RegIdx) (b : Byte) : (s.setV x b).fb = s.fb := rfl
@[simp] theorem State.setV_keys (s : State) (x : RegIdx) (b : Byte) : (s.setV x b).keys = s.keys := rfl
@[simp] theorem State.setV_mem (s : State) (x : RegIdx) (b : Byte) : (s.setV x b).mem = s.mem := rfl
@[simp] theorem State.setV_fault (s : State) (x : RegIdx) (b : Byte) : (s.setV x b).fault = s.fault := rfl
@[simp] theorem State.setV_params (s : State) (x : RegIdx) (b : Byte) : (s.setV x b).params = s.params := rfl
@[simp] theorem State.setV_randIn (s : State) (x : RegIdx) (b : Byte) : (s.setV x b).randIn = s.randIn := rfl
@[simp] theorem State.setV_randDrawn (s : State) (x : RegIdx) (b : Byte) : (s.setV x b).randDrawn = s.randDrawn := rfl
@[simp] theorem State.setV_schedule (s : State) (x : RegIdx) (b : Byte) : (s.setV x b).schedule = s.schedule := rfl
@[simp] theorem State.setV_opsMade (s : State) (x : RegIdx) (b : Byte) : (s.setV x b).opsMade = s.opsMade := rfl
@[simp] theorem State.setV_out (s : State) (x : RegIdx) (b : Byte) : (s.setV x b).out = s.out := rfl

/-! ### finish -/

@[simp] theorem State.finish_v (s : State) (pc : Word) (d : Bool) : (s.finish pc d).v = s.v := rfl
@[simp] theorem State.finish_i (s : State) (pc : Word) (d : Bool) : (s.finish pc d).i = s.i := rfl
@[simp] theorem State.finish_pc (s : State) (pc : Word) (d : Bool) : (s.finish pc d).pc = pc := rfl
@[simp] theorem State.finish_stack (s : State) (pc : Word) (d : Bool) : (s.finish pc d).stack = s.stack := rfl
@[simp] theorem State.finish_sp (s : State) (pc : Word) (d : Bool) : (s.finish pc d).sp = s.sp := rfl
@[simp] theorem State.finish_dt (s : State) (pc : Word) (d : Bool) : (s.finish pc d).dt = s.dt := rfl
@[simp] theorem State.finish_st (s : State) (pc : Word) (d : Bool) : (s.finish pc d).st = s.st := rfl
@[simp] theorem State.finish_fb (s : State) (pc : Word) (d : Bool) : (s.finish pc d).fb = s.fb := rfl
@[simp] theorem State.finish_keys (s : State) (pc : Word) (d : Bool) : (s.finish pc d).keys = s.keys := rfl
@[simp] theorem State.finish_mem (s : State) (pc : Word) (d : Bool) : (s.finish pc d).mem = s.mem := rfl
@[simp] theorem State.finish_fault (s : State) (pc : Word) (d : Bool) : (s.finish pc d).fault = s.fault := rfl
@[simp] theorem State.finish_params (s : State) (pc : Word) (d : Bool) : (s.finish pc d).params = s.params := rfl
@[simp] theorem State.finish_randIn (s : State) (pc : Word) (d : Bool) : (s.finish pc d).randIn = s.randIn := rfl
@[simp] theorem State.finish_randDrawn (s : State) (pc : Word) (d : Bool) : (s.finish pc d).randDrawn = s.randDrawn := rfl
@[simp] theorem State.finish_schedule (s : State) (pc : Word) (d : Bool) : (s.finish pc d).schedule = s.schedule := rfl
@[simp] theorem State.finish_opsMade (s : State) (pc : Word) (d : Bool) : (s.finish pc d).opsMade = s.opsMade := rfl
@[simp] theorem State.finish_out (s : State) (pc : Word) (d : Bool) : (s.finish pc d).out = .ok d none := rfl

/-! ### latch -/

@[simp] theorem State.latch_v (s : State) (c : Fault) : (s.latch c).v = s.v := rfl
@[simp] theorem State.latch_i (s : State) (c : Fault) : (s.latch c).i = s.i := rfl
@[simp] theorem State.latch_pc (s : State) (c : Fault) : (s.latch c).pc = s.pc := rfl
@[simp] theorem State.latch_stack (s : State) (c : Fault) : (s.latch c).stack = s.stack := rfl
@[simp] theorem State.latch_sp (s : State) (c : Fault) : (s.latch c).sp = s.sp := rfl
@[simp] theorem State.latch_dt (s : State) (c : Fault) : (s.latch c).dt = s.dt := rfl
@[simp] theorem State.latch_st (s : State) (c : Fault) : (s.latch c).st = s.st := rfl
@[simp] theorem State.latch_fb (s : State) (c : Fault) : (s.latch c).fb = s.fb := rfl
@[simp] theorem State.latch_keys (s : State) (c : Fault) : (s.latch c).keys = s.keys := rfl
@[simp] theorem State.latch_mem (s : State) (c : Fault) : (s.latch c).mem = s.mem := rfl
@[simp] theorem State.latch_fault (s : State) (c : Fault) : (s.latch c).fault = some c := rfl
@[simp] theorem State.latch_params (s : State) (c : Fault) : (s.latch c).params = s.params := rfl
@[simp] theorem State.latch_randIn (s : State) (c : Fault) : (s.latch c).randIn = s.randIn := rfl
@[simp] theorem State.latch_randDrawn (s : State) (c : Fault) : (s.latch c).randDrawn = s.randDrawn := rfl
@[simp] theorem State.latch_schedule (s : State) (c : Fault) : (s.latch c).schedule = s.schedule := rfl
@[simp] theorem State.latch_opsMade (s : State) (c : Fault) : (s.latch c).opsMade = s.opsMade := rfl
@[simp] theorem State.latch_out (s : State) (c : Fault) : (s.latch c).out = .fatal c := rfl

/-! ### stillFaulted -/

@[simp] theorem State.stillFaulted_v (s : State) (c : Fault) : (s.stillFaulted c).v = s.v := rfl
@[simp] theorem State.stillFaulted_i (s : State) (c : Fault) : (s.stillFaulted c).i = s.i := rfl
@[simp] theorem State.stillFaulted_pc (s : State) (c : Fault) : (s.stillFaulted c).pc = s.pc := rfl
@[simp] theorem State.stillFaulted_stack (s : State) (c : Fault) : (s.stillFaulted c).stack = s.stack := rfl
@[simp] theorem State.stillFaulted_sp (s : State) (c : Fault) : (s.stillFaulted c).sp = s.sp := rfl
@[simp] theorem State.stillFaulted_dt (s : State) (c : Fault) : (s.stillFaulted c).dt = s.dt := rfl
@[simp] theorem State.stillFaulted_st (s : State) (c : Fault) : (s.stillFaulted c).st = s.st := rfl
@[simp] theorem State.stillFaulted_fb (s : State) (c : Fault) : (s.stillFaulted c).fb = s.fb := rfl
@[simp] theorem State.stillFaulted_keys (s : State) (c : Fault) : (s.stillFaulted c).keys = s.keys := rfl
@[simp] theorem State.stillFaulted_mem (s : State) (c : Fault) : (s.stillFaulted c).mem = s.mem := rfl
@[simp] theorem State.stillFaulted_fault (s : State) (c : Fault) : (s.stillFaulted c).fault = s.fault := rfl
@[simp] theorem State.stillFaulted_params (s : State) (c : Fault) : (s.stillFaulted c).params = s.params := rfl
@[simp] theorem State.stillFaulted_randIn (s : State) (c : Fault) : (s.stillFaulted c).randIn = s.randIn := rfl
@[simp] theorem State.stillFaulted_randDrawn (s : State) (c : Fault) : (s.stillFaulted c).randDrawn = s.randDrawn := rfl
@[simp] theorem State.stillFaulted_schedule (s : State) (c : Fault) : (s.stillFaulted c).schedule = s.schedule := rfl
@[simp] theorem State.stillFaulted_opsMade (s : State) (c : Fault) : (s.stillFaulted c).opsMade = s.opsMade := rfl
@[simp] theorem State.stillFaulted_out (s : State) (c : Fault) : (s.stillFaulted c).out = .fatal c := rfl

/-! ### unrecognized -/

@[simp] theorem State.unrecognized_v (s : State) (w : Word) : (s.unrecognized w).v = s.v := rfl
@[simp] theorem State.unrecognized_i (s : State) (w : Word) : (s.unrecognized w).i = s.i := rfl
@[simp] theorem State.unrecognized_pc (s : State) (w : Word) : (s.unrecognized w).pc = s.pc + 2 := rfl
@[simp] theorem State.unrecognized_stack (s : State) (w : Word) : (s.unrecognized w).stack = s.stack := rfl
@[simp] theorem State.unrecognized_sp (s : State) (w : Word) : (s.unrecognized w).sp = s.sp := rfl
@[simp] theorem State.unrecognized_dt (s : State) (w : Word) : (s.unrecognized w).dt = s.dt := rfl
@[simp] theorem State.unrecognized_st (s : State) (w : Word) : (s.unrecognized w).st = s.st := rfl
@[simp] theorem State.unrecognized_fb (s : State) (w : Word) : (s.unrecognized w).fb = s.fb := rfl
@[simp] theorem State.unrecognized_keys (s : State) (w : Word) : (s.unrecognized w).keys = s.keys := rfl
@[simp] theorem State.unrecognized_mem (s : State) (w : Word) : (s.unrecognized w).mem = s.mem := rfl
@[simp] theorem State.unrecognized_fault (s : State) (w : Word) : (s.unrecognized w).fault = s.fault := rfl
@[simp] theorem State.unrecognized_params (s : State) (w : Word) : (s.unrecognized w).params = s.params := rfl
@[simp] theorem State.unrecognized_randIn (s : State) (w : Word) : (s.unrecognized w).randIn = s.randIn := rfl
@[simp] theorem State.unrecognized_randDrawn (s : State) (w : Word) : (s.unrecognized w).randDrawn = s.randDrawn := rfl
@[simp] theorem State.unrecognized_schedule (s : State) (w : Word) : (s.unrecognized w).schedule = s.schedule := rfl
@[simp] theorem State.unrecognized_opsMade (s : State) (w : Word) : (s.unrecognized w).opsMade = s.opsMade := rfl
@[simp] theorem State.unrecognized_out (s : State) (w : Word) : (s.unrecognized w).out = .ok false (some ⟨w, s.pc⟩) := rfl

/-! ### takeRandom -/

@[simp] theorem State.takeRandom_v (s : State) : s.takeRandom.v = s.v := rfl
@[simp] theorem State.takeRandom_i (s : State) : s.takeRandom.i = s.i := rfl
@[simp] theorem State.takeRandom_pc (s : State) : s.takeRandom.pc = s.pc := rfl
@[simp] theorem State.takeRandom_stack (s : State) : s.takeRandom.stack = s.stack := rfl
@[simp] theorem State.takeRandom_sp (s : State) : s.takeRandom.sp = s.sp := rfl
@[simp] theorem State.takeRandom_dt (s : State) : s.takeRandom.dt = s.dt := rfl
@[simp] theorem State.takeRandom_st (s : State) : s.takeRandom.st = s.st := rfl
@[simp] theorem State.takeRandom_fb (s : State) : s.takeRandom.fb = s.fb := rfl
@[simp] theorem State.takeRandom_keys (s : State) : s.takeRandom.keys = s.keys := rfl
@[simp] theorem State.takeRandom_mem (s : State) : s.takeRandom.mem = s.mem := rfl
@[simp] theorem State.takeRandom_fault (s : State) : s.takeRandom.fault = s.fault := rfl
@[simp] theorem State.takeRandom_params (s : State) : s.takeRandom.params = s.params := rfl
@[simp] theorem State.takeRandom_randIn (s : State) : s.takeRandom.randIn = s.randIn.tail := rfl
@[simp] theorem State.takeRandom_randDrawn (s : State) : s.takeRandom.randDrawn = s.randDrawn + 1 := rfl
@[simp] theorem State.takeRandom_schedule (s : State) : s.takeRandom.schedule = s.schedule := rfl
@[simp] theorem State.takeRandom_opsMade (s : State) : s.takeRandom.opsMade = s.opsMade := rfl
@[simp] theorem State.takeRandom_out (s : State) : s.takeRandom.out = s.out := rfl

/-! ### setSchedule -/

@[simp] theorem State.setSchedule_v (s : State) (ops : List HostOp) : (s.setSchedule ops).v = s.v := rfl
@[simp] theorem State.setSchedule_i (s : State) (ops : List HostOp) : (s.setSchedule ops).i = s.i := rfl
@[simp] theorem State.setSchedule_pc (s : State) (ops : List HostOp) : (s.setSchedule ops).pc = s.pc := rfl
@[simp] theorem State.setSchedule_stack (s : State) (ops : List HostOp) : (s.setSchedule ops).stack = s.stack := rfl
@[simp] theorem State.setSchedule_sp (s : State) (ops : List HostOp) : (s.setSchedule ops).sp = s.sp := rfl
@[simp] theorem State.setSchedule_dt (s : State) (ops : List HostOp) : (s.setSchedule ops).dt = s.dt := rfl
@[simp] theorem State.setSchedule_st (s : State) (ops : List HostOp) : (s.setSchedule ops).st = s.st := rfl
@[simp] theorem State.setSchedule_fb (s : State) (ops : List HostOp) : (s.setSchedule ops).fb = s.fb := rfl
@[simp] theorem State.setSchedule_keys (s : State) (ops : List HostOp) : (s.setSchedule ops).keys = s.keys := rfl
@[simp] theorem State.setSchedule_mem (s : State) (ops : List HostOp) : (s.setSchedule ops).mem = s.mem := rfl
@[simp] theorem State.setSchedule_fault (s : State) (ops : List HostOp) : (s.setSchedule ops).fault = s.fault := rfl
@[simp] theorem State.setSchedule_params (s : State) (ops : List HostOp) : (s.setSchedule ops).params = s.params := rfl
@[simp] theorem State.setSchedule_randIn (s : State) (ops : List HostOp) : (s.setSchedule ops).randIn = s.randIn := rfl
@[simp] theorem State.setSchedule_randDrawn (s : State) (ops : List HostOp) : (s.setSchedule ops).randDrawn = s.randDrawn := rfl
@[simp] theorem State.setSchedule_schedule (s : State) (ops : List HostOp) : (s.setSchedule ops).schedule = ops := rfl
@[simp] theorem State.setSchedule_opsMade (s : State) (ops : List HostOp) : (s.setSchedule ops).opsMade = s.opsMade := rfl
@[simp] theorem State.setSchedule_out (s : State) (ops : List HostOp) : (s.setSchedule ops).out = s.out := rfl

/-! ### takeOp -/

@[simp] theorem State.takeOp_v (s : State) : s.takeOp.v = s.v := rfl
@[simp] theorem State.takeOp_i (s : State) : s.takeOp.i = s.i := rfl
@[simp] theorem State.takeOp_pc (s : State) : s.takeOp.pc = s.pc := rfl
@[simp] theorem State.takeOp_stack (s : State) : s.takeOp.stack = s.stack := rfl
@[simp] theorem State.takeOp_sp (s : State) : s.takeOp.sp = s.sp := rfl
@[simp] theorem State.takeOp_dt (s : State) : s.takeOp.dt = s.dt := rfl
@[simp] theorem State.takeOp_st (s : State) : s.takeOp.st = s.st := rfl
@[simp] theorem State.takeOp_fb (s : State) : s.takeOp.fb = s.fb := rfl
@[simp] theorem State.takeOp_keys (s : State) : s.takeOp.keys = s.keys := rfl
@[simp] theorem State.takeOp_mem (s : State) : s.takeOp.mem = s.mem := rfl
@[simp] theorem State.takeOp_fault (s : State) : s.takeOp.fault = s.fault := rfl
@[simp] theorem State.takeOp_params (s : State) : s.takeOp.params = s.params := rfl
@[simp] theorem State.takeOp_randIn (s : State) : s.takeOp.randIn = s.randIn := rfl
@[simp] theorem State.takeOp_randDrawn (s : State) : s.takeOp.randDrawn = s.randDrawn := rfl
@[simp] theorem State.takeOp_schedule (s : State) : s.takeOp.schedule = s.schedule.tail := rfl
@[simp] theorem State.takeOp_opsMade (s : State) : s.takeOp.opsMade = s.opsMade + 1 := rfl
@[simp] theorem State.takeOp_out (s : State) : s.takeOp.out = s.out := rfl

/-! ### hostTick -/

@[simp] theorem State.hostTick_v (s : State) : s.hostTick.v = s.v := rfl
@[simp] theorem State.hostTick_i (s : State) : s.hostTick.i = s.i := rfl
@[simp] theorem State.hostTick_pc (s : State) : s.hostTick.pc = s.pc := rfl
@[simp] theorem State.hostTick_stack (s : State) : s.hostTick.stack = s.stack := rfl
@[simp] theorem State.hostTick_sp (s : State) : s.hostTick.sp = s.sp := rfl
@[simp] theorem State.hostTick_dt (s : State) : s.hostTick.dt = countDown s.dt := rfl
@[simp] theorem State.hostTick_st (s : State) : s.hostTick.st = countDown s.st := rfl
@[simp] theorem State.hostTick_fb (s : State) : s.hostTick.fb = s.fb := rfl
@[simp] theorem State.hostTick_keys (s : State) : s.hostTick.keys = s.keys := rfl
@[simp] theorem State.hostTick_mem (s : State) : s.hostTick.mem = s.mem := rfl
@[simp] theorem State.hostTick_fault (s : State) : s.hostTick.fault = s.fault := rfl
@[simp] theorem State.hostTick_params (s : State) : s.hostTick.params = s.params := rfl
@[simp] theorem State.hostTick_randIn (s : State) : s.hostTick.randIn = s.randIn := rfl
@[simp] theorem State.hostTick_randDrawn (s : State) : s.hostTick.randDrawn = s.randDrawn := rfl
@[simp] theorem State.hostTick_schedule (s : State) : s.hostTick.schedule = s.schedule := rfl
@[simp] theorem State.hostTick_opsMade (s : State) : s.hostTick.opsMade = s.opsMade := rfl
@[simp] theorem State.hostTick_out (s : State) : s.hostTick.out = .ticked (cueEvent s.st) := rfl

/-! ### hostFbRead -/

@[simp] theorem State.hostFbRead_v (s : State) : s.hostFbRead.v = s.v := rfl
@[simp] theorem State.hostFbRead_i (s : State) : s.hostFbRead.i = s.i := rfl
@[simp] theorem State.hostFbRead_pc (s : State) : s.hostFbRead.pc = s.pc := rfl
@[simp] theorem State.hostFbRead_stack (s : State) : s.hostFbRead.stack = s.stack := rfl
@[simp] theorem State.hostFbRead_sp (s : State) : s.hostFbRead.sp = s.sp := rfl
@[simp] theorem State.hostFbRead_dt (s : State) : s.hostFbRead.dt = s.dt := rfl
@[simp] theorem State.hostFbRead_st (s : State) : s.hostFbRead.st = s.st := rfl
@[simp] theorem State.hostFbRead_fb (s : State) : s.hostFbRead.fb = s.fb := rfl
@[simp] theorem State.hostFbRead_keys (s : State) : s.hostFbRead.keys = s.keys := rfl
@[simp] theorem State.hostFbRead_mem (s : State) : s.hostFbRead.mem = s.mem := rfl
@[simp] theorem State.hostFbRead_fault (s : State) : s.hostFbRead.fault = s.fault := rfl
@[simp] theorem State.hostFbRead_params (s : State) : s.hostFbRead.params = s.params := rfl
@[simp] theorem State.hostFbRead_randIn (s : State) : s.hostFbRead.randIn = s.randIn := rfl
@[simp] theorem State.hostFbRead_randDrawn (s : State) : s.hostFbRead.randDrawn = s.randDrawn := rfl
@[simp] theorem State.hostFbRead_schedule (s : State) : s.hostFbRead.schedule = s.schedule := rfl
@[simp] theorem State.hostFbRead_opsMade (s : State) : s.hostFbRead.opsMade = s.opsMade := rfl
@[simp] theorem State.hostFbRead_out (s : State) : s.hostFbRead.out = .frame s.fb := rfl

/-! ### hostReset -/

@[simp] theorem State.hostReset_v (s : State) : s.hostReset.v = Vector.replicate 16 0 := rfl
@[simp] theorem State.hostReset_i (s : State) : s.hostReset.i = 0 := rfl
@[simp] theorem State.hostReset_pc (s : State) : s.hostReset.pc = BitVec.ofNat 16 Config.loadOffset := rfl
@[simp] theorem State.hostReset_stack (s : State) : s.hostReset.stack = Vector.replicate 16 0 := rfl
@[simp] theorem State.hostReset_sp (s : State) : s.hostReset.sp = 0 := rfl
@[simp] theorem State.hostReset_dt (s : State) : s.hostReset.dt = 0 := rfl
@[simp] theorem State.hostReset_st (s : State) : s.hostReset.st = 0 := rfl
@[simp] theorem State.hostReset_fb (s : State) : s.hostReset.fb = Vector.replicate 32 0 := rfl
@[simp] theorem State.hostReset_keys (s : State) : s.hostReset.keys = Vector.replicate 16 false := rfl
@[simp] theorem State.hostReset_mem (s : State) : s.hostReset.mem = [] := rfl
@[simp] theorem State.hostReset_fault (s : State) : s.hostReset.fault = none := rfl
@[simp] theorem State.hostReset_params (s : State) : s.hostReset.params = s.params := rfl
@[simp] theorem State.hostReset_randIn (s : State) : s.hostReset.randIn = s.randIn := rfl
@[simp] theorem State.hostReset_randDrawn (s : State) : s.hostReset.randDrawn = s.randDrawn := rfl
@[simp] theorem State.hostReset_schedule (s : State) : s.hostReset.schedule = s.schedule := rfl
@[simp] theorem State.hostReset_opsMade (s : State) : s.hostReset.opsMade = s.opsMade := rfl
@[simp] theorem State.hostReset_out (s : State) : s.hostReset.out = .nothing := rfl

/-! ### Registers -/

@[simp] theorem State.getV_setV_same (s : State) (x : RegIdx) (b : Byte) : (s.setV x b).getV x = b := by
  simp [State.getV]

theorem State.getV_setV_ne (s : State) (b : Byte) {x y : RegIdx} (h : y ≠ x) : (s.setV x b).getV y = s.getV y := by
  have hne : x.toNat ≠ y.toNat := fun e => h (BitVec.eq_of_toNat_eq e.symm)
  simp [State.getV, hne]

theorem State.getV_setV (s : State) (x y : RegIdx) (b : Byte) :
    (s.setV x b).getV y = if y = x then b else s.getV y := by
  by_cases h : y = x
  · simp [h]
  · simp [h, State.getV_setV_ne]

/-- The flag wins in V[15]; elsewhere the result stands in its destination (41_alu.md R153). -/
theorem State.getV_setWithFlag (s : State) (x y : RegIdx) (r : Byte) (f : Bool) :
    (s.setWithFlag x r f).getV y = if y = 15 then flagByte f else if y = x then r else s.getV y := by
  simp only [State.setWithFlag, State.getV_setV, flagReg]

@[simp] theorem State.setWithFlag_i (s : State) (x : RegIdx) (r : Byte) (g : Bool) : (s.setWithFlag x r g).i = s.i := rfl
@[simp] theorem State.setWithFlag_pc (s : State) (x : RegIdx) (r : Byte) (g : Bool) : (s.setWithFlag x r g).pc = s.pc := rfl
@[simp] theorem State.setWithFlag_stack (s : State) (x : RegIdx) (r : Byte) (g : Bool) : (s.setWithFlag x r g).stack = s.stack := rfl
@[simp] theorem State.setWithFlag_sp (s : State) (x : RegIdx) (r : Byte) (g : Bool) : (s.setWithFlag x r g).sp = s.sp := rfl
@[simp] theorem State.setWithFlag_dt (s : State) (x : RegIdx) (r : Byte) (g : Bool) : (s.setWithFlag x r g).dt = s.dt := rfl
@[simp] theorem State.setWithFlag_st (s : State) (x : RegIdx) (r : Byte) (g : Bool) : (s.setWithFlag x r g).st = s.st := rfl
@[simp] theorem State.setWithFlag_fb (s : State) (x : RegIdx) (r : Byte) (g : Bool) : (s.setWithFlag x r g).fb = s.fb := rfl
@[simp] theorem State.setWithFlag_keys (s : State) (x : RegIdx) (r : Byte) (g : Bool) : (s.setWithFlag x r g).keys = s.keys := rfl
@[simp] theorem State.setWithFlag_mem (s : State) (x : RegIdx) (r : Byte) (g : Bool) : (s.setWithFlag x r g).mem = s.mem := rfl
@[simp] theorem State.setWithFlag_fault (s : State) (x : RegIdx) (r : Byte) (g : Bool) : (s.setWithFlag x r g).fault = s.fault := rfl
@[simp] theorem State.setWithFlag_params (s : State) (x : RegIdx) (r : Byte) (g : Bool) : (s.setWithFlag x r g).params = s.params := rfl
@[simp] theorem State.setWithFlag_randIn (s : State) (x : RegIdx) (r : Byte) (g : Bool) : (s.setWithFlag x r g).randIn = s.randIn := rfl
@[simp] theorem State.setWithFlag_randDrawn (s : State) (x : RegIdx) (r : Byte) (g : Bool) : (s.setWithFlag x r g).randDrawn = s.randDrawn := rfl
@[simp] theorem State.setWithFlag_schedule (s : State) (x : RegIdx) (r : Byte) (g : Bool) : (s.setWithFlag x r g).schedule = s.schedule := rfl
@[simp] theorem State.setWithFlag_opsMade (s : State) (x : RegIdx) (r : Byte) (g : Bool) : (s.setWithFlag x r g).opsMade = s.opsMade := rfl
@[simp] theorem State.setWithFlag_out (s : State) (x : RegIdx) (r : Byte) (g : Bool) : (s.setWithFlag x r g).out = s.out := rfl

/-! ### Registers loaded in bulk -/

@[simp] theorem State.setRegs_i (s : State) (k : Nat) (bs : List Byte) : (s.setRegs k bs).i = s.i := by
  induction bs generalizing s k with
  | nil => rfl
  | cons b bs ih => simp [State.setRegs, ih]

@[simp] theorem State.setRegs_pc (s : State) (k : Nat) (bs : List Byte) : (s.setRegs k bs).pc = s.pc := by
  induction bs generalizing s k with
  | nil => rfl
  | cons b bs ih => simp [State.setRegs, ih]

@[simp] theorem State.setRegs_stack (s : State) (k : Nat) (bs : List Byte) : (s.setRegs k bs).stack = s.stack := by
  induction bs generalizing s k with
  | nil => rfl
  | cons b bs ih => simp [State.setRegs, ih]

@[simp] theorem State.setRegs_sp (s : State) (k : Nat) (bs : List Byte) : (s.setRegs k bs).sp = s.sp := by
  induction bs generalizing s k with
  | nil => rfl
  | cons b bs ih => simp [State.setRegs, ih]

@[simp] theorem State.setRegs_dt (s : State) (k : Nat) (bs : List Byte) : (s.setRegs k bs).dt = s.dt := by
  induction bs generalizing s k with
  | nil => rfl
  | cons b bs ih => simp [State.setRegs, ih]

@[simp] theorem State.setRegs_st (s : State) (k : Nat) (bs : List Byte) : (s.setRegs k bs).st = s.st := by
  induction bs generalizing s k with
  | nil => rfl
  | cons b bs ih => simp [State.setRegs, ih]

@[simp] theorem State.setRegs_fb (s : State) (k : Nat) (bs : List Byte) : (s.setRegs k bs).fb = s.fb := by
  induction bs generalizing s k with
  | nil => rfl
  | cons b bs ih => simp [State.setRegs, ih]

@[simp] theorem State.setRegs_keys (s : State) (k : Nat) (bs : List Byte) : (s.setRegs k bs).keys = s.keys := by
  induction bs generalizing s k with
  | nil => rfl
  | cons b bs ih => simp [State.setRegs, ih]

@[simp] theorem State.setRegs_mem (s : State) (k : Nat) (bs : List Byte) : (s.setRegs k bs).mem = s.mem := by
  induction bs generalizing s k with
  | nil => rfl
  | cons b bs ih => simp [State.setRegs, ih]

@[simp] theorem State.setRegs_fault (s : State) (k : Nat) (bs : List Byte) : (s.setRegs k bs).fault = s.fault := by
  induction bs generalizing s k with
  | nil => rfl
  | cons b bs ih => simp [State.setRegs, ih]

@[simp] theorem State.setRegs_params (s : State) (k : Nat) (bs : List Byte) : (s.setRegs k bs).params = s.params := by
  induction bs generalizing s k with
  | nil => rfl
  | cons b bs ih => simp [State.setRegs, ih]

@[simp] theorem State.setRegs_randIn (s : State) (k : Nat) (bs : List Byte) : (s.setRegs k bs).randIn = s.randIn := by
  induction bs generalizing s k with
  | nil => rfl
  | cons b bs ih => simp [State.setRegs, ih]

@[simp] theorem State.setRegs_randDrawn (s : State) (k : Nat) (bs : List Byte) : (s.setRegs k bs).randDrawn = s.randDrawn := by
  induction bs generalizing s k with
  | nil => rfl
  | cons b bs ih => simp [State.setRegs, ih]

@[simp] theorem State.setRegs_schedule (s : State) (k : Nat) (bs : List Byte) : (s.setRegs k bs).schedule = s.schedule := by
  induction bs generalizing s k with
  | nil => rfl
  | cons b bs ih => simp [State.setRegs, ih]

@[simp] theorem State.setRegs_opsMade (s : State) (k : Nat) (bs : List Byte) : (s.setRegs k bs).opsMade = s.opsMade := by
  induction bs generalizing s k with
  | nil => rfl
  | cons b bs ih => simp [State.setRegs, ih]

@[simp] theorem State.setRegs_out (s : State) (k : Nat) (bs : List Byte) : (s.setRegs k bs).out = s.out := by
  induction bs generalizing s k with
  | nil => rfl
  | cons b bs ih => simp [State.setRegs, ih]

/-! ### What the observers give after an update that does not touch what they read -/

@[simp] theorem State.keyDown_setV (s : State) (x : RegIdx) (b : Byte) (k : Nat) : (s.setV x b).keyDown k = s.keyDown k := rfl
@[simp] theorem State.getV_finish (s : State) (pc : Word) (d : Bool) (y : RegIdx) : (s.finish pc d).getV y = s.getV y := rfl
@[simp] theorem State.keyDown_finish (s : State) (pc : Word) (d : Bool) (k : Nat) : (s.finish pc d).keyDown k = s.keyDown k := rfl
@[simp] theorem State.getV_latch (s : State) (c : Fault) (y : RegIdx) : (s.latch c).getV y = s.getV y := rfl
@[simp] theorem State.keyDown_latch (s : State) (c : Fault) (k : Nat) : (s.latch c).keyDown k = s.keyDown k := rfl
@[simp] theorem State.getV_stillFaulted (s : State) (c : Fault) (y : RegIdx) : (s.stillFaulted c).getV y = s.getV y := rfl
@[simp] theorem State.keyDown_stillFaulted (s : State) (c : Fault) (k : Nat) : (s.stillFaulted c).keyDown k = s.keyDown k := rfl
@[simp] theorem State.getV_unrecognized (s : State) (w : Word) (y : RegIdx) : (s.unrecognized w).getV y = s.getV y := rfl
@[simp] theorem State.keyDown_unrecognized (s : State) (w : Word) (k : Nat) : (s.unrecognized w).keyDown k = s.keyDown k := rfl
@[simp] theorem State.getV_takeRandom (s : State) (y : RegIdx) : s.takeRandom.getV y = s.getV y := rfl
@[simp] theorem State.keyDown_takeRandom (s : State) (k : Nat) : s.takeRandom.keyDown k = s.keyDown k := rfl
@[simp] theorem State.getV_setSchedule (s : State) (ops : List HostOp) (y : RegIdx) : (s.setSchedule ops).getV y = s.getV y := rfl
@[simp] theorem State.keyDown_setSchedule (s : State) (ops : List HostOp) (k : Nat) : (s.setSchedule ops).keyDown k = s.keyDown k := rfl
@[simp] theorem State.getV_takeOp (s : State) (y : RegIdx) : s.takeOp.getV y = s.getV y := rfl
@[simp] theorem State.keyDown_takeOp (s : State) (k : Nat) : s.takeOp.keyDown k = s.keyDown k := rfl
@[simp] theorem State.getV_hostTick (s : State) (y : RegIdx) : s.hostTick.getV y = s.getV y := rfl
@[simp] theorem State.keyDown_hostTick (s : State) (k : Nat) : s.hostTick.keyDown k = s.keyDown k := rfl
@[simp] theorem State.getV_hostFbRead (s : State) (y : RegIdx) : s.hostFbRead.getV y = s.getV y := rfl
@[simp] theorem State.keyDown_hostFbRead (s : State) (k : Nat) : s.hostFbRead.keyDown k = s.keyDown k := rfl

@[simp] theorem State.keyDown_setWithFlag (s : State) (x : RegIdx) (r : Byte) (g : Bool) (k : Nat) :
    (s.setWithFlag x r g).keyDown k = s.keyDown k := rfl

@[simp] theorem State.keyDown_setRegs (s : State) (j : Nat) (bs : List Byte) (k : Nat) :
    (s.setRegs j bs).keyDown k = s.keyDown k := by
  induction bs generalizing s j with
  | nil => rfl
  | cons b bs ih => exact (ih (s.setV (BitVec.ofNat 4 j) b) (j + 1)).trans rfl

end Sys2Proof.Machine
end

