-- ==== Sys2Proof/Laws/Memory.lean ====
section
/-! SUPPORT. Memory: a read after a write, a write leaves every other address alone, and every operation keeps the
canonical form. -/

namespace Sys2Proof.Machine

/-! ### One byte -/

theorem Memory.read_erase (m : Memory) (a a' : Nat) :
    (m.erase a).read a' = if a' = a then Memory.unlisted a else m.read a' := by
  induction m with
  | nil => split <;> simp_all [Memory.erase, Memory.read]
  | cons c m ih =>
    obtain ⟨c, d⟩ := c
    by_cases hc : c = a
    · subst hc
      simp only [Memory.erase] at ih ⊢
      simp only [List.filter_cons, bne_self_eq_false, Bool.false_eq_true, if_false, ih, Memory.read]
      split <;> simp_all [eq_comm]
    · have hb : (c != a) = true := by simpa using hc
      simp only [Memory.erase] at ih ⊢
      simp only [List.filter_cons, hb, if_true, Memory.read, ih]
      split <;> split <;> simp_all

theorem Memory.read_insert (m : Memory) (a a' : Nat) (b : Byte) :
    (m.insert a b).read a' = if a' = a then b else m.read a' := by
  induction m with
  | nil => simp [Memory.insert, Memory.read, eq_comm]
  | cons c m ih =>
    obtain ⟨c, d⟩ := c
    simp only [Memory.insert]
    split
    · simp [Memory.read, eq_comm]
    · split
      · next h => subst h; by_cases e : a = a' <;> simp [Memory.read, e, eq_comm]
      · simp only [Memory.read, ih]; split <;> split <;> simp_all

/-- A read after a write: the byte written at its address, every other byte as before. -/
theorem Memory.read_write (m : Memory) (a a' : Nat) (b : Byte) :
    (m.write a b).read a' = if a' = a then b else m.read a' := by
  simp only [Memory.write]
  split
  · next h => simp [Memory.read_erase, h]
  · simp [Memory.read_insert]

@[simp] theorem Memory.read_write_same (m : Memory) (a : Nat) (b : Byte) : (m.write a b).read a = b := by
  simp [Memory.read_write]

theorem Memory.read_write_other (m : Memory) (b : Byte) {a a' : Nat} (h : a' ≠ a) :
    (m.write a b).read a' = m.read a' := by
  simp [Memory.read_write, h]

@[simp] theorem Memory.read_nil (a : Nat) : Memory.read [] a = Memory.unlisted a := rfl

/-! ### The canonical form -/

theorem Memory.erase_wf {m : Memory} (h : m.wf) (a : Nat) : (m.erase a).wf :=
  ⟨h.1.filter _, fun c hc => h.2 c (List.mem_of_mem_filter hc)⟩

theorem Memory.mem_insert {m : Memory} {a : Nat} {b : Byte} {c : Host.Cell} (h : c ∈ m.insert a b) :
    c = (a, b) ∨ c ∈ m := by
  induction m with
  | nil => simpa [Memory.insert] using h
  | cons d m ih =>
    simp only [Memory.insert] at h
    split at h
    · simpa using h
    · split at h
      · simp only [List.mem_cons] at h ⊢; tauto
      · simp only [List.mem_cons] at h ⊢
        rcases h with h | h
        · tauto
        · rcases ih h with h | h <;> tauto

theorem Memory.insert_sorted {m : Memory} (h : m.Pairwise (fun c d => c.1 < d.1)) (a : Nat) (b : Byte) :
    (m.insert a b).Pairwise (fun c d => c.1 < d.1) := by
  induction m with
  | nil => simp [Memory.insert]
  | cons d m ih =>
    rw [List.pairwise_cons] at h
    simp only [Memory.insert]
    split
    · next hlt =>
      rw [List.pairwise_cons]
      refine ⟨fun c hc => ?_, List.pairwise_cons.2 h⟩
      rcases List.mem_cons.1 hc with rfl | hc
      · exact hlt
      · exact hlt.trans (h.1 c hc)
    · split
      · next heq => subst heq; exact List.pairwise_cons.2 ⟨h.1, h.2⟩
      · refine List.pairwise_cons.2 ⟨fun c hc => ?_, ih h.2⟩
        rcases Memory.mem_insert hc with rfl | hc
        · show d.1 < a; omega
        · exact h.1 c hc

theorem Memory.write_wf {m : Memory} (h : m.wf) {a : Nat} (ha : a < Config.memSize) (b : Byte) :
    (m.write a b).wf := by
  simp only [Memory.write]
  split
  · exact Memory.erase_wf h a
  · next hb =>
    refine ⟨Memory.insert_sorted h.1 a b, fun c hc => ?_⟩
    rcases Memory.mem_insert hc with rfl | hc
    · exact ⟨ha, hb⟩
    · exact h.2 c hc

/-! ### Consecutive bytes -/

@[simp] theorem Memory.length_readSpan (m : Memory) (a n : Nat) : (m.readSpan a n).length = n := by
  induction n generalizing a with
  | zero => rfl
  | succ n ih => simp [Memory.readSpan, ih]

theorem Memory.getElem?_readSpan (m : Memory) (a n k : Nat) :
    (m.readSpan a n)[k]? = if k < n then some (m.read (a + k)) else none := by
  induction n generalizing a k with
  | zero => simp [Memory.readSpan]
  | succ n ih =>
    cases k with
    | zero => simp [Memory.readSpan]
    | succ k => simp [Memory.readSpan, ih, Nat.add_comm, Nat.add_left_comm]

/-- A read after consecutive bytes were written: the byte written where one was, else as before. -/
theorem Memory.read_writeSpan (m : Memory) (a : Nat) (bs : List Byte) (a' : Nat) :
    (m.writeSpan a bs).read a' = if a ≤ a' then bs[a' - a]?.getD (m.read a') else m.read a' := by
  induction bs generalizing m a with
  | nil => simp [Memory.writeSpan]
  | cons b bs ih =>
    simp only [Memory.writeSpan, ih, Memory.read_write]
    rcases Nat.lt_trichotomy a' a with h | h | h
    · rw [if_neg (by omega), if_neg (by omega), if_neg (by omega)]
    · subst h; simp
    · have e : a' - a = (a' - (a + 1)) + 1 := by omega
      rw [if_pos (by omega), if_neg (by omega), if_pos (by omega), e, List.getElem?_cons_succ]

theorem Memory.read_writeSpan_other (m : Memory) (a : Nat) (bs : List Byte) {a' : Nat}
    (h : a' < a ∨ a + bs.length ≤ a') : (m.writeSpan a bs).read a' = m.read a' := by
  rw [Memory.read_writeSpan]
  split
  · rw [List.getElem?_eq_none (by omega)]; rfl
  · rfl

theorem Memory.writeSpan_wf {m : Memory} (h : m.wf) (a : Nat) (bs : List Byte)
    (hb : bs = [] ∨ a + bs.length ≤ Config.memSize) : (m.writeSpan a bs).wf := by
  induction bs generalizing m a with
  | nil => exact h
  | cons b bs ih =>
    simp only [List.length_cons, reduceCtorEq, false_or] at hb
    exact ih (Memory.write_wf h (by omega) b) (a + 1) (.inr (by omega))

end Sys2Proof.Machine
end

