-- ==== Sys2Proof/Laws/Ops.lean ====
section
/-! SUPPORT. For each shared operation of Machine/Ops.lean, once, everything it can answer. -/

namespace Sys2Proof.Machine

/-! ### The checks of an access -/

theorem readFault_none {a : Nat} : readFault a = none ↔ a < Config.memSize := by
  simp only [readFault]; split <;> simp <;> omega

theorem writeFault_none {a : Nat} : writeFault a = none ↔ Config.loadOffset ≤ a ∧ a < Config.memSize := by
  simp only [writeFault]; split
  · simp; omega
  · split <;> simp <;> omega

/-- A span passes its check exactly when every address does. -/
theorem checkSpan_none {check : Nat → Option Fault} {a n : Nat} :
    checkSpan check a n = none ↔ ∀ k < n, check (a + k) = none := by
  induction n generalizing a with
  | zero => simp [checkSpan]
  | succ n ih =>
    simp only [checkSpan]
    cases h : check a with
    | some c => simpa using ⟨0, by omega, by simp [h]⟩
    | none =>
      rw [ih]
      refine ⟨fun H k hk => ?_, fun H k hk => ?_⟩
      · cases k with
        | zero => simpa using h
        | succ k => simpa [Nat.add_comm, Nat.add_left_comm] using H k (by omega)
      · simpa [Nat.add_comm, Nat.add_left_comm] using H (k + 1) (by omega)

/-- The fault of a span is the fault of its lowest failing address. -/
theorem checkSpan_some {check : Nat → Option Fault} {a n : Nat} {c : Fault} :
    checkSpan check a n = some c ↔ ∃ k < n, check (a + k) = some c ∧ ∀ j < k, check (a + j) = none := by
  induction n generalizing a with
  | zero => simp [checkSpan]
  | succ n ih =>
    simp only [checkSpan]
    cases h : check a with
    | some d =>
      refine ⟨fun e => ⟨0, by omega, by simpa [h] using e, by omega⟩, ?_⟩
      rintro ⟨k, -, hk, hj⟩
      cases k with
      | zero => simpa [h] using hk
      | succ k => have := hj 0 (by omega); simp [h] at this
    | none =>
      rw [ih]
      constructor
      · rintro ⟨k, hk, hc, hj⟩
        refine ⟨k + 1, by omega, by simpa [Nat.add_comm, Nat.add_left_comm] using hc, fun j hjk => ?_⟩
        cases j with
        | zero => simpa using h
        | succ j => simpa [Nat.add_comm, Nat.add_left_comm] using hj j (by omega)
      · rintro ⟨k, hk, hc, hj⟩
        cases k with
        | zero => simp [h] at hc
        | succ k =>
          refine ⟨k, by omega, by simpa [Nat.add_comm, Nat.add_left_comm] using hc, fun j hjk => ?_⟩
          simpa [Nat.add_comm, Nat.add_left_comm] using hj (j + 1) (by omega)

theorem checkRead_none {a n : Nat} : checkSpan readFault a n = none ↔ n = 0 ∨ a + n ≤ Config.memSize := by
  simp only [checkSpan_none, readFault_none]
  refine ⟨fun H => ?_, fun H k hk => by omega⟩
  rcases n with _ | n
  · exact .inl rfl
  · have := H n (by omega); omega

theorem checkRead_some {a n : Nat} {c : Fault} :
    checkSpan readFault a n = some c ↔ 0 < n ∧ Config.memSize < a + n ∧ c = .memBounds (max a Config.memSize) := by
  constructor
  · rw [checkSpan_some]
    rintro ⟨k, hk, hc, hj⟩
    have hc' : Config.memSize ≤ a + k ∧ c = .memBounds (a + k) := by
      revert hc; simp only [readFault]; split
      · next h => intro e; exact ⟨h, (Option.some.inj e).symm⟩
      · simp
    refine ⟨by omega, by omega, ?_⟩
    have : a + k = max a Config.memSize := by
      rcases k with _ | k
      · omega
      · have := readFault_none.1 (hj k (by omega)); omega
    rw [hc'.2, this]
  · rintro ⟨h0, h1, rfl⟩
    refine checkSpan_some.2 ⟨max a Config.memSize - a, by omega, ?_, fun j hj => readFault_none.2 (by omega)⟩
    have e : a + (max a Config.memSize - a) = max a Config.memSize := by omega
    simp [readFault, e]

theorem checkWrite_none {a n : Nat} :
    checkSpan writeFault a n = none ↔ n = 0 ∨ Config.loadOffset ≤ a ∧ a + n ≤ Config.memSize := by
  simp only [checkSpan_none, writeFault_none]
  refine ⟨fun H => ?_, fun H k hk => by omega⟩
  rcases n with _ | n
  · exact .inl rfl
  · have h0 := H 0 (by omega)
    have h1 := H n (by omega); omega

/-- The fault of storing at most sixteen bytes: a base below LOAD_OFFSET, or an end above memory (R218: never both). -/
theorem checkWrite_some {a n : Nat} {c : Fault} (hn : n ≤ 16) :
    checkSpan writeFault a n = some c ↔
      0 < n ∧ (a < Config.loadOffset ∧ c = .storeProtect a ∨
        Config.memSize < a + n ∧ c = .memBounds (max a Config.memSize)) := by
  have hm : Config.memSize = 4096 := rfl
  have hl : Config.loadOffset = 512 := rfl
  constructor
  · rw [checkSpan_some]
    rintro ⟨k, hk, hc, hj⟩
    refine ⟨by omega, ?_⟩
    revert hc; simp only [writeFault]; split
    · next h =>
      intro e
      have : a + k = max a Config.memSize := by
        rcases k with _ | k
        · omega
        · have := writeFault_none.1 (hj k (by omega)); omega
      exact .inr ⟨by omega, by rw [← this]; exact (Option.some.inj e).symm⟩
    · split
      · next h =>
        intro e
        rcases k with _ | k
        · exact .inl ⟨h, (Option.some.inj e).symm⟩
        · have := writeFault_none.1 (hj k (by omega)); omega
      · simp
  · rintro ⟨h0, ⟨h1, rfl⟩ | ⟨h1, rfl⟩⟩
    · exact checkSpan_some.2 ⟨0, h0, by simp [writeFault, h1]; omega, by omega⟩
    · refine checkSpan_some.2 ⟨max a Config.memSize - a, by omega, ?_, fun j hj => writeFault_none.2 (by omega)⟩
      have e : a + (max a Config.memSize - a) = max a Config.memSize := by omega
      simp [writeFault, e]

/-! ### MemRead, MemWrite, Fetch -/

theorem State.memRead_ok {s : State} {a n : Nat} {bs : List Byte} :
    s.memRead a n = .ok bs ↔ (n = 0 ∨ a + n ≤ Config.memSize) ∧ bs = s.mem.readSpan a n := by
  rw [← checkRead_none]
  simp only [State.memRead]
  cases checkSpan readFault a n <;> simp [eq_comm]

theorem State.memRead_error {s : State} {a n : Nat} {c : Fault} :
    s.memRead a n = .error c ↔ 0 < n ∧ Config.memSize < a + n ∧ c = .memBounds (max a Config.memSize) := by
  rw [← checkRead_some]
  simp only [State.memRead]
  split <;> simp_all

theorem State.memWrite_ok {s t : State} {a : Nat} {bs : List Byte} :
    s.memWrite a bs = .ok t ↔
      (bs.length = 0 ∨ Config.loadOffset ≤ a ∧ a + bs.length ≤ Config.memSize) ∧
        t = { s with mem := s.mem.writeSpan a bs } := by
  rw [← checkWrite_none]
  simp only [State.memWrite]
  cases checkSpan writeFault a bs.length <;> simp [eq_comm]

theorem State.memWrite_error {s : State} {a : Nat} {bs : List Byte} {c : Fault} (hn : bs.length ≤ 16) :
    s.memWrite a bs = .error c ↔
      0 < bs.length ∧ (a < Config.loadOffset ∧ c = .storeProtect a ∨
        Config.memSize < a + bs.length ∧ c = .memBounds (max a Config.memSize)) := by
  rw [← checkWrite_some hn]
  simp only [State.memWrite]
  split <;> simp_all

theorem State.fetch_ok {s : State} {w : Word} :
    s.fetch = .ok w ↔ s.pc.toNat + 2 ≤ Config.memSize ∧
      w = wordOfBytes (s.mem.read s.pc.toNat) (s.mem.read (s.pc.toNat + 1)) := by
  have h : checkSpan readFault s.pc.toNat 2 = none ↔ s.pc.toNat + 2 ≤ Config.memSize := by
    simp [checkRead_none]
  rw [← h]
  simp only [State.fetch]
  cases checkSpan readFault s.pc.toNat 2 <;> simp [eq_comm]

theorem State.fetch_error {s : State} {c : Fault} :
    s.fetch = .error c ↔ Config.memSize < s.pc.toNat + 2 ∧ c = .memBounds (max s.pc.toNat Config.memSize) := by
  have h : checkSpan readFault s.pc.toNat 2 = some c ↔
      Config.memSize < s.pc.toNat + 2 ∧ c = .memBounds (max s.pc.toNat Config.memSize) := by
    simp [checkRead_some]
  rw [← h]
  simp only [State.fetch]
  split <;> simp_all

/-! ### The call stack -/

theorem State.push_none {s : State} {w : Word} : s.push w = none ↔ 16 ≤ s.sp.val := by
  simp [State.push]

/-- A push writes the slot SP points at, raises SP by one and changes nothing else. -/
theorem State.push_some {s t : State} {w : Word} (h : s.push w = some t) :
    ∃ hs : s.sp.val < 16, t = { s with stack := s.stack.set s.sp.val w hs, sp := ⟨s.sp.val + 1, by omega⟩ } := by
  simp only [State.push] at h
  split at h
  · next hs => exact ⟨hs, (Option.some.inj h).symm⟩
  · cases h

theorem State.pop_none {s : State} : s.pop = none ↔ s.sp.val = 0 := by
  simp [State.pop]

/-- A pop lowers SP by one, answers the slot it then points at and changes nothing else. -/
theorem State.pop_some {s t : State} {w : Word} (h : s.pop = some (w, t)) :
    ∃ hs : 0 < s.sp.val, w = s.stack[s.sp.val - 1]'(by omega) ∧ t = { s with sp := ⟨s.sp.val - 1, by omega⟩ } := by
  simp only [State.pop] at h
  split at h
  · next hs =>
    have := Option.some.inj h
    exact ⟨hs, (Prod.mk.inj this).1.symm, (Prod.mk.inj this).2.symm⟩
  · cases h

/-! ### What the host does next -/

/-- The host makes a defined call. -/
@[simp] theorem definedCall_wellFormed (op : HostOp) : (definedCall op).WellFormed = true := by
  cases op <;> simp [definedCall, HostOp.WellFormed]
  exact Nat.mod_lt _ (by decide)

/-- A defined call is the one made: no interleaving is shut out. -/
theorem definedCall_eq {op : HostOp} (h : op.WellFormed = true) : definedCall op = op := by
  cases op <;> simp_all [definedCall, HostOp.WellFormed, Nat.mod_eq_of_lt]

theorem State.nextOp_cons {s : State} {op : HostOp} {rest : List HostOp} (h : s.schedule = op :: rest) :
    s.nextOp = op := by
  simp [State.nextOp, h]

theorem State.nextOp_nil {s : State} (h : s.schedule = []) : s.nextOp = definedCall (Config.hostOp s.opsMade) := by
  simp [State.nextOp, h]

/-- With defined calls to come, the next operation is a defined call. -/
theorem State.nextOp_wellFormed {s : State} (h : scheduleWellFormed s.schedule = true) : s.nextOp.WellFormed = true := by
  cases e : s.schedule with
  | nil => rw [State.nextOp_nil e]; exact definedCall_wellFormed _
  | cons op rest =>
    rw [e, scheduleWellFormed, List.all_cons, Bool.and_eq_true] at h
    rw [State.nextOp_cons e]
    exact h.1

/-! ### Registers in bulk -/

@[simp] theorem State.length_firstRegs (s : State) {n : Nat} (h : n ≤ 16) : (s.firstRegs n).length = n := by
  simp [State.firstRegs, h]

theorem State.getElem?_firstRegs (s : State) (n : Nat) (k : RegIdx) :
    (s.firstRegs n)[k.toNat]? = if k.toNat < n then some (s.getV k) else none := by
  have hk : k.toNat < 16 := k.isLt
  simp [State.firstRegs, State.getV, List.getElem?_take, hk]

theorem bulkCount_le (x : RegIdx) : bulkCount x ≤ 16 := by
  have := x.isLt; simp only [bulkCount]; omega

theorem bulkCount_pos (x : RegIdx) : 0 < bulkCount x := Nat.succ_pos _

/-- Registers `k`, `k + 1`, ... hold the loaded bytes, the others what they held. -/
theorem State.getV_setRegs (s : State) (k : Nat) (bs : List Byte) (hk : k + bs.length ≤ 16) (y : RegIdx) :
    (s.setRegs k bs).getV y = if k ≤ y.toNat then bs[y.toNat - k]?.getD (s.getV y) else s.getV y := by
  induction bs generalizing s k with
  | nil => simp [State.setRegs]
  | cons b bs ih =>
    simp only [List.length_cons] at hk
    have hy : y = BitVec.ofNat 4 k ↔ y.toNat = k := by
      rw [← BitVec.toNat_inj, BitVec.toNat_ofNat, Nat.mod_eq_of_lt (by omega)]
    simp only [State.setRegs, ih _ (k + 1) (by omega), State.getV_setV, hy]
    rcases Nat.lt_trichotomy y.toNat k with h | h | h
    · rw [if_neg (by omega), if_neg (by omega), if_neg (by omega)]
    · simp [h]
    · have e : y.toNat - k = (y.toNat - (k + 1)) + 1 := by omega
      rw [if_pos (by omega), if_neg (by omega), if_pos (by omega), e, List.getElem?_cons_succ]

/-! ### Keys -/

theorem State.keyDown_ge (s : State) {k : Nat} (h : 16 ≤ k) : s.keyDown k = false := by
  simp only [State.keyDown]
  rw [dif_neg (by omega)]

theorem State.firstKey_none {s : State} : s.firstKey = none ↔ ∀ k < 16, s.keyDown k = false := by
  simp [State.firstKey, Config.numKeys]

/-- The key found is pressed, is one of the sixteen, and no key below it is pressed. -/
theorem State.firstKey_some {s : State} {k : Nat} (h : s.firstKey = some k) :
    k < 16 ∧ s.keyDown k = true ∧ ∀ j < k, s.keyDown j = false := by
  simp only [State.firstKey, Config.numKeys, List.find?_range_eq_some] at h
  refine ⟨by simpa using h.2.1, h.1, fun j hj => by simpa using h.2.2 j hj⟩

/-! ### Framebuffer -/

@[simp] theorem Framebuffer.pixel_clear (x y : Nat) : Framebuffer.clear.pixel x y = false := by
  simp [Framebuffer.pixel, Framebuffer.clear]

theorem Framebuffer.pixel_off (fb : Framebuffer) {x y : Nat} (h : 64 ≤ x ∨ 32 ≤ y) : fb.pixel x y = false := by
  simp only [Framebuffer.pixel]
  split
  · exact BitVec.getLsbD_of_ge _ _ (by omega)
  · rfl

/-- Toggling turns over the one pixel and no other. -/
theorem Framebuffer.pixel_toggle (fb : Framebuffer) {x y : Nat} (hx : x < 64) (hy : y < 32) (x' y' : Nat) :
    (fb.toggle x y).pixel x' y' = ((fb.pixel x' y') ^^ decide (x' = x ∧ y' = y)) := by
  simp only [Framebuffer.toggle, Framebuffer.pixel, dif_pos hy]
  by_cases hy' : y' < 32
  · simp only [dif_pos hy']
    by_cases e : y' = y
    · subst e
      by_cases e : x' = x
      · subst e; simp [hx]
      · simp [BitVec.getLsbD_twoPow, e, Ne.symm e]
    · have e' : y ≠ y' := fun h => e h.symm
      simp [e, e']
  · have : y' ≠ y := by omega
    simp [hy', this]

theorem place_lt {edge : SpriteEdge} {x y px py : Nat} (h : place edge x y = some (px, py)) : px < 64 ∧ py < 32 := by
  cases edge
  · simp only [place, Option.some.injEq, Prod.mk.injEq, Config.fbWidth, Config.fbHeight] at h; omega
  · simp only [place] at h
    split at h
    · next hb =>
      have hb : x < 64 ∧ y < 32 := hb
      simp only [Option.some.injEq, Prod.mk.injEq] at h; omega
    · cases h

end Sys2Proof.Machine
end

