-- ==== Sys2Proof/Laws/Operands.lean ====
section
/-! SUPPORT. The operand forms, flag computations and host operations as numbers: one lemma each. -/

namespace Sys2Proof.Machine

@[simp] theorem toNat_addrOfNNN (nnn : Addr12) : (addrOfNNN nnn).toNat = nnn.toNat := by
  have := nnn.isLt
  simp only [addrOfNNN, BitVec.toNat_setWidth]
  omega

@[simp] theorem toNat_wideByte (b : Byte) : (wideByte b).toNat = b.toNat := by
  have := b.isLt
  simp only [wideByte, BitVec.toNat_setWidth]
  omega

theorem toNat_glyphAddr (b : Byte) : (glyphAddr b).toNat = 5 * (b.toNat % 16) := by
  simp only [glyphAddr, lowNibble, Config.glyphBase, Config.glyphBytes, BitVec.toNat_ofNat]
  omega

theorem toNat_flagByte (f : Bool) : (flagByte f).toNat = if f then 1 else 0 := by
  cases f <;> rfl

theorem carryFlag_iff (x y : Byte) : carryFlag x y = true ↔ 255 < x.toNat + y.toNat := by
  simp only [carryFlag, decide_eq_true_eq]

theorem noBorrowFlag_iff (x y : Byte) : noBorrowFlag x y = true ↔ y.toNat ≤ x.toNat := by
  simp only [noBorrowFlag, decide_eq_true_eq]

/-- The two shifts by one and the bits they shift out, as numbers. -/
theorem shift_numbers (b : Byte) :
    (b >>> 1).toNat = b.toNat / 2 ∧ (flagByte (shiftRightFlag b)).toNat = b.toNat % 2 ∧
    (b <<< 1).toNat = 2 * b.toNat % 256 ∧ (flagByte (shiftLeftFlag b)).toNat = b.toNat / 128 := by
  revert b
  decide

theorem toNat_countDown (b : Byte) : (countDown b).toNat = b.toNat - 1 := by
  revert b
  decide

theorem cueEvent_some (b : Byte) : cueEvent b = some .soundCueEnded ↔ b.toNat = 1 := by
  revert b
  decide

theorem State.hostLoad_fits {s : State} {bytes : List Byte} (h : bytes.length ≤ 3584) :
    s.hostLoad bytes = { s with mem := s.mem.writeSpan Config.loadOffset bytes, out := .loaded true } :=
  if_neg (by simp only [Config.memSize, Config.loadOffset]; omega)

theorem State.hostLoad_overflows {s : State} {bytes : List Byte} (h : 3584 < bytes.length) :
    s.hostLoad bytes = { s with out := .loaded false } :=
  if_pos (by simp only [Config.memSize, Config.loadOffset]; omega)

theorem hostKeySet_defined {k : Nat} (h : k < 16) (pressed : Bool) (s : State) :
    hostKeySet k pressed s = .next { s with keys := s.keys.set k pressed h, out := .nothing } :=
  dif_pos h

theorem hostKeySet_undefined {k : Nat} (h : 16 ≤ k) (pressed : Bool) (s : State) :
    hostKeySet k pressed s = .refused (.undefinedKeyIndex k) :=
  dif_neg (by omega)

end Sys2Proof.Machine
end

