-- ==== Sys2Proof/Laws/Exec.lean ====
section
/-! SUPPORT. Everything a meaning and a step can answer, said once: the frame as a list of parts, the completions, one
equation per path of each instruction that has several, and the inversion of the step. -/

namespace Sys2Proof.Machine

/-! ### The frame, part by part -/

theorem frame_iff {changed : Part → Prop} {s t : State} :
    Frame changed s t ↔
      (∀ x, ¬changed (.v x) → t.getV x = s.getV x) ∧ (¬changed .i → t.i = s.i) ∧ (¬changed .pc → t.pc = s.pc) ∧
      (∀ k, ¬changed (.stack k) → t.stack[k]? = s.stack[k]?) ∧ (¬changed .sp → t.sp = s.sp) ∧
      (¬changed .dt → t.dt = s.dt) ∧ (¬changed .st → t.st = s.st) ∧
      (∀ x y, ¬changed (.pixel x y) → t.fb.pixel x y = s.fb.pixel x y) ∧
      (∀ k, ¬changed (.key k) → t.keyDown k = s.keyDown k) ∧
      (∀ a, ¬changed (.byte a) → t.mem.read a = s.mem.read a) ∧ (¬changed .fault → t.fault = s.fault) ∧
      (¬changed .params → t.params = s.params) ∧ (¬changed .randIn → t.randIn = s.randIn) ∧
      (¬changed .randDrawn → t.randDrawn = s.randDrawn) ∧ (¬changed .schedule → t.schedule = s.schedule) ∧
      (¬changed .opsMade → t.opsMade = s.opsMade) ∧
      (¬changed .out → t.out = s.out) := by
  constructor
  · intro h
    exact ⟨fun x => h (.v x), h .i, h .pc, fun k => h (.stack k), h .sp, h .dt, h .st, fun x y => h (.pixel x y),
      fun k => h (.key k), fun a => h (.byte a), h .fault, h .params, h .randIn, h .randDrawn, h .schedule,
      h .opsMade, h .out⟩
  · rintro ⟨hv, hi, hpc, hstack, hsp, hdt, hst, hpx, hkey, hbyte, hfault, hpar, hin, hdr, hsch, hops, hout⟩ p
    cases p <;> simp only [Part.Same] <;> apply_assumption

theorem Frame.trans {c : Part → Prop} {s t u : State} (h₁ : Frame c s t) (h₂ : Frame c t u) : Frame c s u := by
  intro p hp
  have a := h₁ p hp
  have b := h₂ p hp
  cases p <;> exact Eq.trans b a

theorem Frame.mono {c d : Part → Prop} {s t : State} (h : Frame c s t) (hcd : ∀ p, c p → d p) : Frame d s t :=
  fun p hp => h p fun hc => hp (hcd p hc)

/-- The fatal entry is precise (60_exceptions.md R216). -/
theorem fatalEntry_latch (s : State) (c : Fault) : FatalEntry c s (s.latch c) :=
  ⟨rfl, rfl, frame_iff.2 (by simp)⟩

/-! ### The completions -/

@[simp] theorem raise_eq (c : Fault) (s : State) : raise c s = .next (s.latch c) := rfl
@[simp] theorem completeNext_eq (s : State) : completeNext s = .next (s.finish (s.pc + 2) false) := rfl
@[simp] theorem completeJump_eq (s : State) (w : Word) : completeJump s w = .next (s.finish w false) := rfl
@[simp] theorem completeDisplay_eq (s : State) : completeDisplay s = .next (s.finish (s.pc + 2) true) := rfl
@[simp] theorem completeSkip_eq (s : State) (b : Bool) :
    completeSkip s b = .next (s.finish (if b then s.pc + 4 else s.pc + 2) false) := rfl

/-! ### The instructions with more than one path -/

theorem execRet_underflow {s : State} (h : s.sp.val = 0) : execRet s = .next (s.latch (.stackUnderflow s.pc.toNat)) := by
  simp [execRet, State.pop_none.2 h]

theorem execRet_pops {s : State} (h : 0 < s.sp.val) :
    execRet s = .next (State.finish { s with sp := ⟨s.sp.val - 1, by omega⟩ }
      (s.stack[s.sp.val - 1]'(by omega) + 2) false) := by
  simp [execRet, State.pop, h]

theorem execCall_overflow {s : State} (nnn : Addr12) (h : s.sp.val = 16) :
    execCall nnn s = .next (s.latch (.stackOverflow s.pc.toNat)) := by
  simp [execCall, State.push_none.2 (le_of_eq h.symm)]

theorem execCall_pushes {s : State} (nnn : Addr12) (h : s.sp.val < 16) :
    execCall nnn s = .next (State.finish
      { s with stack := s.stack.set s.sp.val s.pc h, sp := ⟨s.sp.val + 1, by omega⟩ } (addrOfNNN nnn) false) := by
  simp [execCall, State.push, h]

/-- A store of one to sixteen bytes: the fatal entry of StoreProtect or MemBounds, or the bytes written. -/
theorem State.memWrite_cases (s : State) (a : Nat) {bs : List Byte} (h0 : 0 < bs.length) (hn : bs.length ≤ 16) :
    a < Config.loadOffset ∧ s.memWrite a bs = .error (.storeProtect a) ∨
    Config.memSize < a + bs.length ∧ s.memWrite a bs = .error (.memBounds (max a Config.memSize)) ∨
    (Config.loadOffset ≤ a ∧ a + bs.length ≤ Config.memSize) ∧
      s.memWrite a bs = .ok { s with mem := s.mem.writeSpan a bs } := by
  by_cases h1 : a < Config.loadOffset
  · exact .inl ⟨h1, (State.memWrite_error hn).2 ⟨h0, .inl ⟨h1, rfl⟩⟩⟩
  · by_cases h2 : Config.memSize < a + bs.length
    · exact .inr (.inl ⟨h2, (State.memWrite_error hn).2 ⟨h0, .inr ⟨h2, rfl⟩⟩⟩)
    · exact .inr (.inr ⟨by omega, State.memWrite_ok.2 ⟨.inr (by omega), rfl⟩⟩)

/-- A read of consecutive bytes: the fatal entry of MemBounds, or the bytes. -/
theorem State.memRead_cases (s : State) (a n : Nat) :
    (0 < n ∧ Config.memSize < a + n) ∧ s.memRead a n = .error (.memBounds (max a Config.memSize)) ∨
    (n = 0 ∨ a + n ≤ Config.memSize) ∧ s.memRead a n = .ok (s.mem.readSpan a n) := by
  by_cases h : 0 < n ∧ Config.memSize < a + n
  · exact .inl ⟨h, State.memRead_error.2 ⟨h.1, h.2, rfl⟩⟩
  · exact .inr ⟨by omega, State.memRead_ok.2 ⟨by omega, rfl⟩⟩

@[simp] theorem length_bcdDigits (b : Byte) : (bcdDigits b).length = 3 := rfl

theorem execLdB_cases (x : RegIdx) (s : State) :
    s.base < Config.loadOffset ∧ execLdB x s = .next (s.latch (.storeProtect s.base)) ∨
    Config.memSize < s.base + 3 ∧ execLdB x s = .next (s.latch (.memBounds (max s.base Config.memSize))) ∨
    (Config.loadOffset ≤ s.base ∧ s.base + 3 ≤ Config.memSize) ∧
      execLdB x s = .next (State.finish { s with mem := s.mem.writeSpan s.base (bcdDigits (s.getV x)) }
        (s.pc + 2) false) := by
  rcases s.memWrite_cases s.base (bs := bcdDigits (s.getV x)) (by simp) (by simp) with ⟨h, e⟩ | ⟨h, e⟩ | ⟨h, e⟩
  · exact .inl ⟨h, by simp [execLdB, e]⟩
  · exact .inr (.inl ⟨by simpa using h, by simp [execLdB, e]⟩)
  · exact .inr (.inr ⟨by simpa using h, by simp [execLdB, e]⟩)

theorem execStRegs_cases (x : RegIdx) (s : State) :
    s.base < Config.loadOffset ∧ execStRegs x s = .next (s.latch (.storeProtect s.base)) ∨
    Config.memSize < s.base + bulkCount x ∧
      execStRegs x s = .next (s.latch (.memBounds (max s.base Config.memSize))) ∨
    (Config.loadOffset ≤ s.base ∧ s.base + bulkCount x ≤ Config.memSize) ∧
      execStRegs x s = .next (State.finish { s with mem := s.mem.writeSpan s.base (s.firstRegs (bulkCount x)) }
        (s.pc + 2) false) := by
  have hl := State.length_firstRegs s (bulkCount_le x)
  rcases s.memWrite_cases s.base (bs := s.firstRegs (bulkCount x)) (by rw [hl]; exact bulkCount_pos x)
    (by rw [hl]; exact bulkCount_le x)
    with ⟨h, e⟩ | ⟨h, e⟩ | ⟨h, e⟩
  · exact .inl ⟨h, by simp [execStRegs, e]⟩
  · exact .inr (.inl ⟨hl ▸ h, by simp [execStRegs, e]⟩)
  · exact .inr (.inr ⟨hl ▸ h, by simp [execStRegs, e]⟩)

theorem execLdRegs_cases (x : RegIdx) (s : State) :
    Config.memSize < s.base + bulkCount x ∧
      execLdRegs x s = .next (s.latch (.memBounds (max s.base Config.memSize))) ∨
    s.base + bulkCount x ≤ Config.memSize ∧
      execLdRegs x s = .next (State.finish (s.setRegs 0 (s.mem.readSpan s.base (bulkCount x))) (s.pc + 2) false) := by
  have hp := bulkCount_pos x
  rcases s.memRead_cases s.base (bulkCount x) with ⟨h, e⟩ | ⟨h, e⟩
  · exact .inl ⟨h.2, by simp [execLdRegs, e]⟩
  · exact .inr ⟨by omega, by simp [execLdRegs, e]⟩

/-- The framebuffer and the collision of a draw inside memory. -/
def drawnSprite (x y : RegIdx) (n : BitVec 4) (s : State) : Framebuffer × Bool :=
  drawRows s.params.spriteEdge (s.getV x).toNat (s.getV y).toNat (s.mem.readSpan s.base n.toNat) (s.fb, false)

theorem execDrw_cases (x y : RegIdx) (n : BitVec 4) (s : State) :
    (0 < n.toNat ∧ Config.memSize < s.base + n.toNat) ∧
      execDrw x y n s = .next (s.latch (.memBounds (max s.base Config.memSize))) ∨
    (n.toNat = 0 ∨ s.base + n.toNat ≤ Config.memSize) ∧
      execDrw x y n s = .next (State.finish
        (State.setV { s with fb := (drawnSprite x y n s).1 } flagReg (flagByte (drawnSprite x y n s).2))
        (s.pc + 2) true) := by
  rcases s.memRead_cases s.base n.toNat with ⟨h, e⟩ | ⟨h, e⟩
  · exact .inl ⟨h, by simp [execDrw, e]⟩
  · exact .inr ⟨h, by simp [execDrw, e, drawnSprite]⟩

theorem execLdVxK_cases (x : RegIdx) (s : State) :
    (∀ k < 16, s.keyDown k = false) ∧ execLdVxK x s = .next (s.finish s.pc false) ∨
    ∃ k < 16, s.keyDown k = true ∧ (∀ j < k, s.keyDown j = false) ∧
      execLdVxK x s = .next ((s.setV x (BitVec.ofNat 8 k)).finish (s.pc + 2) false) := by
  cases h : s.firstKey with
  | none => exact .inl ⟨State.firstKey_none.1 h, by simp [execLdVxK, h]⟩
  | some k =>
    obtain ⟨hk, hd, hj⟩ := State.firstKey_some h
    exact .inr ⟨k, hk, hd, hj, by simp [execLdVxK, h]⟩

/-! ### One instruction -/

/-- An instruction takes the fatal entry, or completes with the latch, the keys, the parameters and the host's operations as
they were and memory as it was or with bytes written inside the writable region. -/
theorem exec_cases (i : Instr) (s : State) :
    (∃ c, exec i s = .next (s.latch c)) ∨
    ∃ t, exec i s = .next t ∧ t.fault = s.fault ∧ t.keys = s.keys ∧ t.params = s.params ∧
      t.schedule = s.schedule ∧ t.opsMade = s.opsMade ∧
      (∃ d, t.out = .ok d none) ∧
      (t.mem = s.mem ∨ ∃ a bs, Config.loadOffset ≤ a ∧ a + bs.length ≤ Config.memSize ∧ t.mem = s.mem.writeSpan a bs) := by
  cases i with
  | ret =>
    by_cases h : s.sp.val = 0
    · exact .inl ⟨_, execRet_underflow h⟩
    · exact .inr ⟨_, execRet_pops (Nat.pos_of_ne_zero h), rfl, rfl, rfl, rfl, rfl, ⟨_, rfl⟩, .inl rfl⟩
  | call nnn =>
    by_cases h : s.sp.val < 16
    · exact .inr ⟨_, execCall_pushes nnn h, rfl, rfl, rfl, rfl, rfl, ⟨_, rfl⟩, .inl rfl⟩
    · exact .inl ⟨_, execCall_overflow nnn (by omega)⟩
  | ldB x =>
    rcases execLdB_cases x s with ⟨-, e⟩ | ⟨-, e⟩ | ⟨h, e⟩
    · exact .inl ⟨_, e⟩
    · exact .inl ⟨_, e⟩
    · exact .inr ⟨_, e, rfl, rfl, rfl, rfl, rfl, ⟨_, rfl⟩, .inr ⟨s.base, bcdDigits (s.getV x), h.1, h.2, rfl⟩⟩
  | stRegs x =>
    have hl := State.length_firstRegs s (bulkCount_le x)
    rcases execStRegs_cases x s with ⟨-, e⟩ | ⟨-, e⟩ | ⟨h, e⟩
    · exact .inl ⟨_, e⟩
    · exact .inl ⟨_, e⟩
    · exact .inr ⟨_, e, rfl, rfl, rfl, rfl, rfl, ⟨_, rfl⟩, .inr ⟨s.base, s.firstRegs (bulkCount x), h.1, by rw [hl]; exact h.2, rfl⟩⟩
  | ldRegs x =>
    rcases execLdRegs_cases x s with ⟨-, e⟩ | ⟨h, e⟩
    · exact .inl ⟨_, e⟩
    · exact .inr ⟨_, e, by simp, by simp, by simp, by simp, by simp, ⟨_, rfl⟩, .inl (by simp)⟩
  | drw x y n =>
    rcases execDrw_cases x y n s with ⟨-, e⟩ | ⟨-, e⟩
    · exact .inl ⟨_, e⟩
    · exact .inr ⟨_, e, rfl, rfl, rfl, rfl, rfl, ⟨_, rfl⟩, .inl rfl⟩
  | ldVxK x =>
    rcases execLdVxK_cases x s with ⟨-, e⟩ | ⟨k, -, -, -, e⟩ <;>
      exact .inr ⟨_, e, rfl, rfl, rfl, rfl, rfl, ⟨_, rfl⟩, .inl rfl⟩
  | _ => exact .inr ⟨_, rfl, rfl, rfl, rfl, rfl, rfl, ⟨_, rfl⟩, .inl rfl⟩

@[simp] theorem State.fetch_setSchedule (s : State) (ops : List HostOp) : (s.setSchedule ops).fetch = s.fetch := rfl
@[simp] theorem State.fetch_takeOp (s : State) : s.takeOp.fetch = s.fetch := rfl

/-! ### One `step` operation, one step of the machine -/

/-- The `step` operation: still faulted, a fetch fault, an unrecognized word, or the decoded instruction. -/
theorem instrStep_cases (s : State) :
    (∃ c, s.fault = some c ∧ instrStep s = .next (s.stillFaulted c)) ∨
    s.fault = none ∧
      ((∃ c, s.fetch = .error c ∧ instrStep s = .next (s.latch c)) ∨
       ∃ w, s.fetch = .ok w ∧
        (decode w = none ∧ instrStep s = .next (s.unrecognized w) ∨
         ∃ i, decode w = some i ∧ instrStep s = exec i s)) := by
  simp only [instrStep]
  cases hf : s.fault with
  | some c => exact .inl ⟨c, rfl, rfl⟩
  | none =>
    refine .inr ⟨rfl, ?_⟩
    cases hw : s.fetch with
    | error c => exact .inl ⟨c, rfl, rfl⟩
    | ok w =>
      refine .inr ⟨w, rfl, ?_⟩
      cases hd : decode w with
      | none => exact .inl ⟨rfl, by simp only [hd]⟩
      | some i => exact .inr ⟨i, rfl, by simp only [hd]⟩

/-- A step of the machine is the host's next operation, on the state that has taken it off. -/
theorem step_eq (s : State) : step s = operate s.nextOp s.takeOp := rfl

theorem step_of_aboutToStep {s : State} (h : s.AboutToStep) : step s = instrStep s.takeOp := by
  rw [step_eq, show s.nextOp = .step from h]
  rfl

/-- A run goes on from the state its first step answers. -/
theorem run_succ {M : Host.Core} {s t : M.State} (h : M.step s = .next t) (n : Nat) : M.run (n + 1) s = M.run n t := by
  rw [Host.Core.run, h]

/-- The same of the machine, in its own names. -/
theorem core_run_succ {s t : State} (h : step s = .next t) (n : Nat) :
    Sys2Proof.core.run (n + 1) s = Sys2Proof.core.run n t :=
  run_succ (M := Sys2Proof.core) h n

/-- A `step` operation answers a next state and leaves the host's operations alone. -/
theorem instrStep_next (s : State) :
    ∃ t, instrStep s = .next t ∧ t.schedule = s.schedule ∧ t.opsMade = s.opsMade := by
  rcases instrStep_cases s with ⟨c, -, e⟩ | ⟨-, ⟨c, -, e⟩ | ⟨w, -, ⟨-, e⟩ | ⟨i, -, e⟩⟩⟩
  · exact ⟨_, e, rfl, rfl⟩
  · exact ⟨_, e, rfl, rfl⟩
  · exact ⟨_, e, rfl, rfl⟩
  · rcases exec_cases i s with ⟨c, h⟩ | ⟨t, h, -, -, -, hs, ho, -⟩
    · exact ⟨_, e.trans h, rfl, rfl⟩
    · exact ⟨t, e.trans h, hs, ho⟩

/-- Every defined call answers a next state and leaves the host's operations alone. -/
theorem operate_next {op : HostOp} (h : op.WellFormed = true) (s : State) :
    ∃ t, operate op s = .next t ∧ t.schedule = s.schedule ∧ t.opsMade = s.opsMade := by
  cases op with
  | step => exact instrStep_next s
  | keySet k b => exact ⟨_, hostKeySet_defined (of_decide_eq_true h) b s, rfl, rfl⟩
  | load b => refine ⟨_, rfl, ?_, ?_⟩ <;> simp only [State.hostLoad] <;> split <;> rfl
  | reset => exact ⟨_, rfl, rfl, rfl⟩
  | tick => exact ⟨_, rfl, rfl, rfl⟩
  | fbRead => exact ⟨_, rfl, rfl, rfl⟩

/-- What a step of the machine, of whatever operation, can do to memory: nothing, empty it (`reset`), or write bytes inside
the writable region (a store instruction or `load`). -/
theorem step_mem {s t : State} (h : step s = .next t) :
    t.mem = s.mem ∨ t.mem = [] ∨
      ∃ a bs, Config.loadOffset ≤ a ∧ a + bs.length ≤ Config.memSize ∧ t.mem = s.mem.writeSpan a bs := by
  have hi : ∀ u : State, u.mem = s.mem → instrStep u = .next t →
      t.mem = s.mem ∨ ∃ a bs, Config.loadOffset ≤ a ∧ a + bs.length ≤ Config.memSize ∧ t.mem = s.mem.writeSpan a bs := by
    intro u hu e
    rcases instrStep_cases u with ⟨c, -, e'⟩ | ⟨-, ⟨c, -, e'⟩ | ⟨w, -, ⟨-, e'⟩ | ⟨i, -, e'⟩⟩⟩
    · rw [e'] at e; cases e; exact .inl hu
    · rw [e'] at e; cases e; exact .inl hu
    · rw [e'] at e; cases e; exact .inl hu
    · rw [e'] at e
      rcases exec_cases i u with ⟨c, e'⟩ | ⟨v, e', -, -, -, -, -, -, hm⟩ <;> rw [e'] at e <;> cases e
      · exact .inl hu
      · exact hu ▸ hm
  rw [step_eq] at h
  cases e : s.nextOp with
  | step =>
    rw [e] at h
    exact (hi s.takeOp rfl h).imp id .inr
  | reset => rw [e] at h; cases h; exact .inr (.inl rfl)
  | load b =>
    rw [e] at h; cases h; simp only [State.hostLoad]; split
    · exact .inl rfl
    · next hb =>
      exact .inr (.inr ⟨Config.loadOffset, b, le_rfl, by simp only [Config.memSize, Config.loadOffset] at *; omega, rfl⟩)
  | tick => rw [e] at h; cases h; exact .inl rfl
  | fbRead => rw [e] at h; cases h; exact .inl rfl
  | keySet k b =>
    rw [e] at h; simp only [operate, hostKeySet] at h; split at h
    · cases h; exact .inl rfl
    · cases h

end Sys2Proof.Machine
end

