-- ==== Sys2Proof/Laws/Display.lean ====
section
/-! SUPPORT. Drawing, said once: a draw turns over the pixels its set bits land on, each of them once, and collides when one
of them was set (spec/43_display.md R182 to R184). -/

namespace Sys2Proof.Machine

/-- The pixels the set bits of one sprite row land on, in the order they are drawn. -/
def rowHits (edge : SpriteEdge) (x0 y : Nat) (b : Byte) : List (Nat × Nat) :=
  (List.range 8).filterMap fun c => if spriteBit b c then place edge (x0 + c) y else none

/-- The pixels the set bits of a sprite land on, in the order they are drawn. -/
def spriteHits (edge : SpriteEdge) (x0 : Nat) : Nat → List Byte → List (Nat × Nat)
  | _, [] => []
  | y, b :: bs => rowHits edge x0 y b ++ spriteHits edge x0 (y + 1) bs

/-- One pixel turned over, and whether it or an earlier one was set. -/
def turnOver (acc : Framebuffer × Bool) (p : Nat × Nat) : Framebuffer × Bool :=
  (acc.1.toggle p.1 p.2, acc.2 || acc.1.pixel p.1 p.2)

theorem drawRow_eq (edge : SpriteEdge) (x0 y : Nat) (b : Byte) (acc : Framebuffer × Bool) :
    drawRow edge x0 y b acc = (rowHits edge x0 y b).foldl turnOver acc := by
  simp only [drawRow, rowHits, List.foldl_filterMap]
  congr 1
  funext acc c
  cases spriteBit b c
  · rfl
  · simp only [if_true, plot]
    cases place edge (x0 + c) y <;> rfl

theorem drawRows_eq (edge : SpriteEdge) (x0 y : Nat) (bs : List Byte) (acc : Framebuffer × Bool) :
    drawRows edge x0 y bs acc = (spriteHits edge x0 y bs).foldl turnOver acc := by
  induction bs generalizing y acc with
  | nil => rfl
  | cons b bs ih => simp only [drawRows, spriteHits, ih, drawRow_eq, List.foldl_append]

theorem mem_rowHits {edge : SpriteEdge} {x0 y : Nat} {b : Byte} {p : Nat × Nat} :
    p ∈ rowHits edge x0 y b ↔ ∃ c < 8, spriteBit b c = true ∧ place edge (x0 + c) y = some p := by
  simp only [rowHits, List.mem_filterMap, List.mem_range]
  refine exists_congr fun c => and_congr_right fun _ => ?_
  cases spriteBit b c <;> simp

theorem mem_spriteHits {edge : SpriteEdge} {x0 y : Nat} {bs : List Byte} {p : Nat × Nat} :
    p ∈ spriteHits edge x0 y bs ↔
      ∃ r b, bs[r]? = some b ∧ ∃ c < 8, spriteBit b c = true ∧ place edge (x0 + c) (y + r) = some p := by
  induction bs generalizing y with
  | nil => simp [spriteHits]
  | cons b bs ih =>
    simp only [spriteHits, List.mem_append, mem_rowHits, ih]
    constructor
    · rintro (h | ⟨r, d, hr, h⟩)
      · exact ⟨0, b, rfl, h⟩
      · exact ⟨r + 1, d, hr, by simpa only [Nat.add_assoc, Nat.add_comm 1 r] using h⟩
    · rintro ⟨r, d, hr, h⟩
      cases r with
      | zero => cases hr; exact .inl h
      | succ r => exact .inr ⟨r, d, hr, by simpa only [Nat.add_assoc, Nat.add_comm 1 r] using h⟩

/-- Two bits of a sprite at most 32 rows high never land on one pixel. -/
theorem place_inj {edge : SpriteEdge} {x0 y0 c c' r r' : Nat} {p : Nat × Nat} (hc : c < 8) (hc' : c' < 8)
    (hr : r < 32) (hr' : r' < 32) (h : place edge (x0 + c) (y0 + r) = some p)
    (h' : place edge (x0 + c') (y0 + r') = some p) : c = c' ∧ r = r' := by
  obtain ⟨px, py⟩ := p
  cases edge
  · simp only [place, Option.some.injEq, Prod.mk.injEq, Config.fbWidth, Config.fbHeight] at h h'; omega
  · simp only [place, Option.ite_none_right_eq_some, Option.some.injEq, Prod.mk.injEq] at h h'; omega

theorem rowHits_nodup (edge : SpriteEdge) (x0 y : Nat) (b : Byte) : (rowHits edge x0 y b).Nodup := by
  rw [rowHits, List.Nodup, List.pairwise_filterMap]
  refine List.Pairwise.imp_of_mem (fun {c c'} hc hc' hne p h p' h' e => ?_) List.nodup_range
  subst e
  rw [List.mem_range] at hc hc'
  rw [Option.ite_none_right_eq_some] at h h'
  exact hne (place_inj (y0 := y) (r := 0) (r' := 0) hc hc' (by omega) (by omega) h.2 h'.2).1

theorem spriteHits_nodup (edge : SpriteEdge) (x0 y : Nat) {bs : List Byte} (hn : bs.length ≤ 32) :
    (spriteHits edge x0 y bs).Nodup := by
  induction bs generalizing y with
  | nil => exact List.nodup_nil
  | cons b bs ih =>
    simp only [List.length_cons] at hn
    refine List.Nodup.append (rowHits_nodup edge x0 y b) (ih (y + 1) (by omega)) fun p h h' => ?_
    obtain ⟨c, hc, -, h⟩ := mem_rowHits.1 h
    obtain ⟨r, d, hr, c', hc', -, h'⟩ := mem_spriteHits.1 h'
    have hr := (List.getElem?_eq_some_iff.1 hr).1
    have := place_inj (y0 := y) (r := 0) (r' := 1 + r) hc hc' (by omega) (by omega) h (by rw [← h', Nat.add_assoc])
    omega

theorem mem_spriteHits_lt {edge : SpriteEdge} {x0 y : Nat} {bs : List Byte} {p : Nat × Nat}
    (h : p ∈ spriteHits edge x0 y bs) : p.1 < 64 ∧ p.2 < 32 := by
  obtain ⟨r, b, -, c, -, -, h⟩ := mem_spriteHits.1 h
  exact place_lt h

/-- Turning over a list of different pixels of the grid turns over exactly those, and finds whether one was set. -/
theorem foldl_turnOver {l : List (Nat × Nat)} (hl : ∀ p ∈ l, p.1 < 64 ∧ p.2 < 32) (hn : l.Nodup) (fb : Framebuffer)
    (f : Bool) :
    (∀ px py, (l.foldl turnOver (fb, f)).1.pixel px py = ((fb.pixel px py) ^^ decide ((px, py) ∈ l))) ∧
    ((l.foldl turnOver (fb, f)).2 = true ↔ f = true ∨ ∃ p ∈ l, fb.pixel p.1 p.2 = true) := by
  induction l generalizing fb f with
  | nil => simp
  | cons q l ih =>
    rw [List.nodup_cons] at hn
    have hq := hl q List.mem_cons_self
    obtain ⟨h1, h2⟩ := ih (fun p hp => hl p (List.mem_cons_of_mem _ hp)) hn.2 (fb.toggle q.1 q.2) (f || fb.pixel q.1 q.2)
    have ht : ∀ px py, (fb.toggle q.1 q.2).pixel px py = ((fb.pixel px py) ^^ decide ((px, py) = q)) := by
      intro px py
      rw [Framebuffer.pixel_toggle fb hq.1 hq.2]
      congr 1
      rw [decide_eq_decide, Prod.ext_iff]
    refine ⟨fun px py => ?_, ?_⟩
    · show (l.foldl turnOver (fb.toggle q.1 q.2, f || fb.pixel q.1 q.2)).1.pixel px py = _
      rw [h1, ht]
      by_cases e : (px, py) = q
      · subst e; simp [hn.1]
      · simp [e]
    · show (l.foldl turnOver (fb.toggle q.1 q.2, f || fb.pixel q.1 q.2)).2 = true ↔ _
      rw [h2, Bool.or_eq_true, List.exists_mem_cons_iff, or_assoc]
      refine or_congr_right (or_congr_right (exists_congr fun p => and_congr_right fun hp => ?_))
      have hne : ¬((p.1, p.2) = q) := fun e => hn.1 (e ▸ hp)
      rw [ht, decide_eq_false hne, Bool.xor_false]

/-- Everything a draw does: each pixel some set bit lands on is turned over, the others stay, and the collision is that one of
those pixels was set. -/
theorem drawRows_spec (edge : SpriteEdge) (x0 y : Nat) {bs : List Byte} (hn : bs.length ≤ 32) (fb : Framebuffer) :
    (∀ px py, (drawRows edge x0 y bs (fb, false)).1.pixel px py =
      ((fb.pixel px py) ^^ decide ((px, py) ∈ spriteHits edge x0 y bs))) ∧
    ((drawRows edge x0 y bs (fb, false)).2 = true ↔ ∃ p ∈ spriteHits edge x0 y bs, fb.pixel p.1 p.2 = true) := by
  rw [drawRows_eq]
  obtain ⟨h1, h2⟩ := foldl_turnOver (fun p hp => mem_spriteHits_lt hp) (spriteHits_nodup edge x0 y hn) fb false
  exact ⟨h1, by simpa using h2⟩

/-- Two framebuffers with the same pixels are the same. -/
theorem Framebuffer.ext_pixel {f g : Framebuffer} (h : ∀ x y, f.pixel x y = g.pixel x y) : f = g := by
  apply Vector.ext
  intro y hy
  apply BitVec.eq_of_getLsbD_eq
  intro x _
  have := h x y
  simpa [Framebuffer.pixel, hy] using this

end Sys2Proof.Machine
end

