-- ==== Sys2Proof/Laws/PerInstr.lean ====
section
/-! SUPPORT. The family EncodesInRow, instruction by instruction: the encoded word matches the mask and match columns of
the instruction's own row of the opcode table (30_encoding.md R95, R96). -/

namespace Sys2Proof.Laws.EncodesInRow

/-- `(encode i & mask) = match` for the row of `i`. -/
def Statement (i : Instr) : Prop := rowMatches (encode i) i.maskMatch = true

/-! ### By format: a mask on fixed fields sees only them -/

theorem and_F (x : BitVec 4) : x &&& 0xF#4 = x := BitVec.and_allOnes

theorem and_FF (x : BitVec 8) : x &&& 0xFF#8 = x := BitVec.and_allOnes

theorem encNNN_and (op : BitVec 4) (nnn : Addr12) : encNNN op nnn &&& 0xF000#16 = encNNN op 0 := by
  show (op ++ nnn : BitVec (4 + 12)) &&& (0xF#4 ++ 0x000#12 : BitVec (4 + 12)) = (op ++ 0#12 : BitVec (4 + 12))
  simp only [BitVec.and_append, and_F, BitVec.and_zero]

theorem encXNN_and (op : BitVec 4) (x : RegIdx) (nn : Byte) : encXNN op x nn &&& 0xF000#16 = encXNN op 0 0 := by
  show (op ++ x ++ nn : BitVec (4 + 4 + 8)) &&& (0xF#4 ++ 0x0#4 ++ 0x00#8 : BitVec (4 + 4 + 8)) =
    (op ++ 0#4 ++ 0#8 : BitVec (4 + 4 + 8))
  simp only [BitVec.and_append, and_F, BitVec.and_zero]

theorem encX_and (op : BitVec 4) (x : RegIdx) (nn : Byte) : encXNN op x nn &&& 0xF0FF#16 = encXNN op 0 nn := by
  show (op ++ x ++ nn : BitVec (4 + 4 + 8)) &&& (0xF#4 ++ 0x0#4 ++ 0xFF#8 : BitVec (4 + 4 + 8)) =
    (op ++ 0#4 ++ nn : BitVec (4 + 4 + 8))
  simp only [BitVec.and_append, and_F, and_FF, BitVec.and_zero]

theorem encXY_and (op : BitVec 4) (x y : RegIdx) (n : BitVec 4) :
    encXYN op x y n &&& 0xF00F#16 = encXYN op 0 0 n := by
  show (op ++ x ++ y ++ n : BitVec (4 + 4 + 4 + 4)) &&& (0xF#4 ++ 0x0#4 ++ 0x0#4 ++ 0xF#4 : BitVec (4 + 4 + 4 + 4)) =
    (op ++ 0#4 ++ 0#4 ++ n : BitVec (4 + 4 + 4 + 4))
  simp only [BitVec.and_append, and_F, BitVec.and_zero]

theorem encXYN_and (op : BitVec 4) (x y : RegIdx) (n : BitVec 4) :
    encXYN op x y n &&& 0xF000#16 = encXYN op 0 0 0 := by
  show (op ++ x ++ y ++ n : BitVec (4 + 4 + 4 + 4)) &&& (0xF#4 ++ 0x0#4 ++ 0x0#4 ++ 0x0#4 : BitVec (4 + 4 + 4 + 4)) =
    (op ++ 0#4 ++ 0#4 ++ 0#4 : BitVec (4 + 4 + 4 + 4))
  simp only [BitVec.and_append, and_F, BitVec.and_zero]

/-! ### By constructor -/

theorem cls : Statement .cls := rfl
theorem ret : Statement .ret := rfl
theorem jp (nnn : Addr12) : Statement (.jp nnn) := by simp [Statement, rowMatches, encode, Instr.maskMatch, encNNN_and]; decide
theorem call (nnn : Addr12) : Statement (.call nnn) := by simp [Statement, rowMatches, encode, Instr.maskMatch, encNNN_and]; decide
theorem seImm (x : RegIdx) (nn : Byte) : Statement (.seImm x nn) := by simp [Statement, rowMatches, encode, Instr.maskMatch, encXNN_and]; decide
theorem sneImm (x : RegIdx) (nn : Byte) : Statement (.sneImm x nn) := by simp [Statement, rowMatches, encode, Instr.maskMatch, encXNN_and]; decide
theorem seReg (x y : RegIdx) : Statement (.seReg x y) := by simp [Statement, rowMatches, encode, Instr.maskMatch, encXY_and]; decide
theorem ldImm (x : RegIdx) (nn : Byte) : Statement (.ldImm x nn) := by simp [Statement, rowMatches, encode, Instr.maskMatch, encXNN_and]; decide
theorem addImm (x : RegIdx) (nn : Byte) : Statement (.addImm x nn) := by simp [Statement, rowMatches, encode, Instr.maskMatch, encXNN_and]; decide
theorem ldReg (x y : RegIdx) : Statement (.ldReg x y) := by simp [Statement, rowMatches, encode, Instr.maskMatch, encXY_and]; decide
theorem orReg (x y : RegIdx) : Statement (.orReg x y) := by simp [Statement, rowMatches, encode, Instr.maskMatch, encXY_and]; decide
theorem andReg (x y : RegIdx) : Statement (.andReg x y) := by simp [Statement, rowMatches, encode, Instr.maskMatch, encXY_and]; decide
theorem xorReg (x y : RegIdx) : Statement (.xorReg x y) := by simp [Statement, rowMatches, encode, Instr.maskMatch, encXY_and]; decide
theorem addReg (x y : RegIdx) : Statement (.addReg x y) := by simp [Statement, rowMatches, encode, Instr.maskMatch, encXY_and]; decide
theorem subReg (x y : RegIdx) : Statement (.subReg x y) := by simp [Statement, rowMatches, encode, Instr.maskMatch, encXY_and]; decide
theorem shr (x y : RegIdx) : Statement (.shr x y) := by simp [Statement, rowMatches, encode, Instr.maskMatch, encXY_and]; decide
theorem subnReg (x y : RegIdx) : Statement (.subnReg x y) := by simp [Statement, rowMatches, encode, Instr.maskMatch, encXY_and]; decide
theorem shl (x y : RegIdx) : Statement (.shl x y) := by simp [Statement, rowMatches, encode, Instr.maskMatch, encXY_and]; decide
theorem sneReg (x y : RegIdx) : Statement (.sneReg x y) := by simp [Statement, rowMatches, encode, Instr.maskMatch, encXY_and]; decide
theorem ldI (nnn : Addr12) : Statement (.ldI nnn) := by simp [Statement, rowMatches, encode, Instr.maskMatch, encNNN_and]; decide
theorem jpV0 (nnn : Addr12) : Statement (.jpV0 nnn) := by simp [Statement, rowMatches, encode, Instr.maskMatch, encNNN_and]; decide
theorem rnd (x : RegIdx) (nn : Byte) : Statement (.rnd x nn) := by simp [Statement, rowMatches, encode, Instr.maskMatch, encXNN_and]; decide
theorem drw (x y : RegIdx) (n : BitVec 4) : Statement (.drw x y n) := by simp [Statement, rowMatches, encode, Instr.maskMatch, encXYN_and]; decide
theorem skp (x : RegIdx) : Statement (.skp x) := by simp [Statement, rowMatches, encode, Instr.maskMatch, encX_and]; decide
theorem sknp (x : RegIdx) : Statement (.sknp x) := by simp [Statement, rowMatches, encode, Instr.maskMatch, encX_and]; decide
theorem ldVxDt (x : RegIdx) : Statement (.ldVxDt x) := by simp [Statement, rowMatches, encode, Instr.maskMatch, encX_and]; decide
theorem ldVxK (x : RegIdx) : Statement (.ldVxK x) := by simp [Statement, rowMatches, encode, Instr.maskMatch, encX_and]; decide
theorem ldDtVx (x : RegIdx) : Statement (.ldDtVx x) := by simp [Statement, rowMatches, encode, Instr.maskMatch, encX_and]; decide
theorem ldStVx (x : RegIdx) : Statement (.ldStVx x) := by simp [Statement, rowMatches, encode, Instr.maskMatch, encX_and]; decide
theorem addI (x : RegIdx) : Statement (.addI x) := by simp [Statement, rowMatches, encode, Instr.maskMatch, encX_and]; decide
theorem ldF (x : RegIdx) : Statement (.ldF x) := by simp [Statement, rowMatches, encode, Instr.maskMatch, encX_and]; decide
theorem ldB (x : RegIdx) : Statement (.ldB x) := by simp [Statement, rowMatches, encode, Instr.maskMatch, encX_and]; decide
theorem stRegs (x : RegIdx) : Statement (.stRegs x) := by simp [Statement, rowMatches, encode, Instr.maskMatch, encX_and]; decide
theorem ldRegs (x : RegIdx) : Statement (.ldRegs x) := by simp [Statement, rowMatches, encode, Instr.maskMatch, encX_and]; decide

end Sys2Proof.Laws.EncodesInRow
end

