-- ==== Sys2Proof/Tests/Slice0.lean ====
section
/-! SUPPORT. The model's own tests. The expected results are the vectors of spec/95_test_vectors.md, named by their ids
(E1-01, CT-10, ...), or are worked out by hand from the rule a test names. Then, for each statement with hypotheses, a
witness that meets them. -/

namespace Sys2Proof.Tests

open Sys2Proof Sys2Proof.Machine

/-! ### Well-formedness: the one check, and a term it refuses -/

theorem test_wellFormed_refuses_key_16 : HostOp.WellFormed (.keySet 16 true) = false := by decide
theorem test_wellFormed_accepts_key_15 : HostOp.WellFormed (.keySet 15 true) = true := by decide
theorem test_wellFormed_refuses_schedule : scheduleWellFormed [.tick, .keySet 99 false] = false := by decide
theorem test_wellFormed_every_instruction : Instr.WellFormed (.drw 15 15 15) = true := by decide

/-! ### Decoding: each row of 30_encoding.md R95, its word written out from the pattern -/

theorem test_decode_control :
    decode 0b0000000011101110 = some .ret ∧ decode 0b0001001100000001 = some (.jp 0x301) ∧
    decode 0b0010101010111100 = some (.call 0xABC) ∧ decode 0b0011111100000111 = some (.seImm 15 0x07) ∧
    decode 0b0100001100010001 = some (.sneImm 3 0x11) ∧ decode 0b0101000100100000 = some (.seReg 1 2) ∧
    decode 0b1001000100100000 = some (.sneReg 1 2) ∧ decode 0b1011001100000000 = some (.jpV0 0x300) := by decide

theorem test_decode_alu :
    decode 0b0110101000101111 = some (.ldImm 10 0x2F) ∧ decode 0b0111000111111111 = some (.addImm 1 0xFF) ∧
    decode 0b1000000100100000 = some (.ldReg 1 2) ∧ decode 0b1000000100100001 = some (.orReg 1 2) ∧
    decode 0b1000000100100010 = some (.andReg 1 2) ∧ decode 0b1000000100100011 = some (.xorReg 1 2) ∧
    decode 0b1000000100100100 = some (.addReg 1 2) ∧ decode 0b1000000100100101 = some (.subReg 1 2) ∧
    decode 0b1000000100100110 = some (.shr 1 2) ∧ decode 0b1000000100100111 = some (.subnReg 1 2) ∧
    decode 0b1000000100101110 = some (.shl 1 2) ∧ decode 0b1100001100001111 = some (.rnd 3 0x0F) := by decide

theorem test_decode_index_memory :
    decode 0b1010001011110000 = some (.ldI 0x2F0) ∧ decode 0b1111001000011110 = some (.addI 2) ∧
    decode 0b1111010000101001 = some (.ldF 4) ∧ decode 0b1111000100110011 = some (.ldB 1) ∧
    decode 0b1111001001010101 = some (.stRegs 2) ∧ decode 0b1111001001100101 = some (.ldRegs 2) := by decide

theorem test_decode_display :
    decode 0b0000000011100000 = some .cls ∧ decode 0b1101000100100101 = some (.drw 1 2 5) := by decide

theorem test_decode_keys_timers :
    decode 0b1110001010011110 = some (.skp 2) ∧ decode 0b1110001010100001 = some (.sknp 2) ∧
    decode 0b1111001100000111 = some (.ldVxDt 3) ∧ decode 0b1111010100001010 = some (.ldVxK 5) ∧
    decode 0b1111001100010101 = some (.ldDtVx 3) ∧ decode 0b1111001100011000 = some (.ldStVx 3) := by decide

/-- UN-01 to UN-25. -/
theorem test_decode_unrecognized :
    ([0x0000, 0x0123, 0x00E1, 0x00EF, 0x00FE, 0x0FEE, 0x01E0, 0x5121, 0x512F, 0x9121, 0x8128, 0x812D, 0x812F, 0xE19F] ++
      [0xE1A0, 0xE100, 0xE01E, 0xF100, 0xF106, 0xF108, 0xF11F, 0xF132, 0xF175, 0xF1FF, 0xFFFF]).all
      (fun w => decode w == none) = true := by decide

/-- The words of the listing of program P1, and of E1-01, DP-27. -/
theorem test_encode :
    encode (.ldImm 1 0x0A) = 0x610A ∧ encode (.addReg 8 1) = 0x8814 ∧ encode (.jp 0x212) = 0x1212 ∧
    encode (.ldI 0x300) = 0xA300 ∧ encode (.ldB 0) = 0xF033 ∧ encode (.ldRegs 2) = 0xF265 ∧
    encode (.seImm 1 0) = 0x3100 ∧ encode (.drw 1 2 5) = 0xD125 ∧ encode .ret = 0x00EE := by decide

theorem test_decodeBytes_rejects_by_name :
    decodeBytes [0x81] = .rejected .tooShort ∧ decodeBytes [0x01, 0x23] = .rejected (.unrecognized 0x0123) ∧
    decodeBytes [0x6A, 0x2F, 0x00] = .instr (.ldImm 10 0x2F) [0x00] := by decide

theorem test_decodeTableWord :
    decodeTableWord 16 0x8124 = some (.addReg 1 2) ∧ decodeTableWord 16 0x0123 = none := by decide

/-- The table of R95 has one row for each of the 34 mnemonics. -/
theorem test_opcode_rows : opcodeRows.length = 34 ∧ opcodeRows.Nodup := by decide

/-! ### One step of each instruction -/

/-- The reset state with both parameters given, about to make a `step`. -/
def start (edge : SpriteEdge) (source : ShiftSource) : State :=
  { State.reset with params := ⟨edge, source⟩, schedule := [.step] }

/-- The reset state with `SPRITE_EDGE = wrap`, `SHIFT_SOURCE = vx`. -/
def s0 : State := start .wrap .vx

/-- Whether one step of the machine, with this word at the pc, ends in a next state of which `p` holds. -/
def steps (w : Nat) (s : State) (p : State → Bool) : Bool :=
  match step (s.withFetchWord 16 w) with
  | .next t => p t
  | .fault _ | .refused _ => false

/-- The same for a host operation. -/
def does (op : HostOp) (s : State) (p : State → Bool) : Bool :=
  match operate op s with
  | .next t => p t
  | .fault _ | .refused _ => false

def withBytes (s : State) (a : Nat) (bs : List Byte) : State := { s with mem := s.mem.writeSpan a bs }
def withPixel (s : State) (x y : Nat) : State := { s with fb := s.fb.toggle x y }
def withKey (s : State) (k : Fin 16) : State := { s with keys := s.keys.set k.val true }
def atI (s : State) (i : Word) : State := { s with i := i }
def atPc (s : State) (pc : Word) : State := { s with pc := pc }
/-- A stack of this depth with this word in slot `k`. -/
def withStack (s : State) (sp : Fin 17) (k : Fin 16) (w : Word) : State :=
  { s with sp := sp, stack := s.stack.set k.val w }

/-- The pixels set in a row, as a number whose bit `x` is column `x`. -/
def row (t : State) (y : Fin 32) : Nat := (t.fb[y.val]).toNat

/-- `Ok(display_changed, none)`. -/
def ok (t : State) (d : Bool) : Bool := t.out == .ok d none

theorem test_ret_CT_02 : steps 0x00EE (withStack s0 16 15 0x0ABC)
    (fun t => t.pc == 0x0ABE && t.sp == 15 && t.stack[15] == 0x0ABC && ok t false) = true := by decide
theorem test_ret_CT_03 : steps 0x00EE s0
    (fun t => t.fault == some (.stackUnderflow 0x200) && t.pc == 0x200 && t.out == .fatal (.stackUnderflow 0x200)) = true := by
  decide
theorem test_jp_CT_06 : steps 0x1301 s0 (fun t => t.pc == 0x0301 && ok t false) = true := by decide
theorem test_call_CT_10 : steps 0x2ABC (atPc (withStack s0 15 0 0) 0x0456)
    (fun t => t.pc == 0x0ABC && t.sp == 16 && t.stack[15] == 0x0456) = true := by decide
theorem test_call_CT_11 : steps 0x2300 (withStack s0 16 0 0)
    (fun t => t.fault == some (.stackOverflow 0x200) && t.pc == 0x200 && t.sp == 16) = true := by decide
theorem test_seImm_CT_12 : steps 0x3000 s0 (fun t => t.pc == 0x0204) = true := by decide
theorem test_seImm_CT_13 : steps 0x3001 s0 (fun t => t.pc == 0x0202) = true := by decide
theorem test_sneImm_CT_15 : steps 0x4311 (s0.setV 3 0x10) (fun t => t.pc == 0x0204) = true := by decide
theorem test_sneImm_CT_16 : steps 0x4310 (s0.setV 3 0x10) (fun t => t.pc == 0x0202) = true := by decide
theorem test_seReg_CT_17 : steps 0x5120 ((s0.setV 1 7).setV 2 7) (fun t => t.pc == 0x0204) = true := by decide
theorem test_seReg_CT_18 : steps 0x5120 ((s0.setV 1 7).setV 2 8) (fun t => t.pc == 0x0202) = true := by decide
theorem test_sneReg_CT_20 : steps 0x9120 ((s0.setV 1 7).setV 2 8) (fun t => t.pc == 0x0204) = true := by decide
theorem test_sneReg_CT_22 : steps 0x9330 (s0.setV 3 0x99) (fun t => t.pc == 0x0202) = true := by decide
theorem test_jpV0_CT_24 : steps 0xBFFF (s0.setV 0 0xFF) (fun t => t.pc == 0x10FE && t.fault == none) = true := by decide

theorem test_ldImm_AL_01 : steps 0x6A2F s0 (fun t => t.getV 10 == 0x2F && t.pc == 0x202) = true := by decide
/-- R141: 0xFF + 0x02 wraps to 0x01 and VF keeps its value. -/
theorem test_addImm_wraps : steps 0x7102 ((s0.setV 1 0xFF).setV 15 0x77)
    (fun t => t.getV 1 == 0x01 && t.getV 15 == 0x77) = true := by decide
/-- R142. -/
theorem test_ldReg : steps 0x8120 ((s0.setV 1 1).setV 2 2) (fun t => t.getV 1 == 2 && t.getV 2 == 2) = true := by decide
/-- R143: VF keeps its value. -/
theorem test_orReg : steps 0x8121 (((s0.setV 1 0x0C).setV 2 0x0A).setV 15 1)
    (fun t => t.getV 1 == 0x0E && t.getV 15 == 1) = true := by decide
/-- R144. -/
theorem test_andReg : steps 0x8122 ((s0.setV 1 0x0C).setV 2 0x0A) (fun t => t.getV 1 == 0x08) = true := by decide
/-- R145. -/
theorem test_xorReg : steps 0x8123 ((s0.setV 1 0x0C).setV 2 0x0A) (fun t => t.getV 1 == 0x06) = true := by decide
theorem test_addReg_E1_03 : steps 0x8124 ((s0.setV 1 0x80).setV 2 0x80)
    (fun t => t.getV 1 == 0 && t.getV 15 == 1) = true := by decide
theorem test_addReg_E1_02 : steps 0x8124 ((s0.setV 1 0xFF).setV 2 0)
    (fun t => t.getV 1 == 0xFF && t.getV 15 == 0) = true := by decide
theorem test_subReg_E2_02 : steps 0x8125 ((s0.setV 1 5).setV 2 7)
    (fun t => t.getV 1 == 0xFE && t.getV 15 == 0) = true := by decide
theorem test_subReg_AL_20 : steps 0x81F5 ((s0.setV 1 0).setV 15 1)
    (fun t => t.getV 1 == 0xFF && t.getV 15 == 0) = true := by decide
theorem test_subnReg_E2_04 : steps 0x8127 ((s0.setV 1 5).setV 2 7)
    (fun t => t.getV 1 == 2 && t.getV 15 == 1) = true := by decide
theorem test_subnReg_AL_22 : steps 0x8F17 ((s0.setV 15 3).setV 1 5) (fun t => t.getV 15 == 1) = true := by decide
theorem test_shr_AL_28 : steps 0x81F6 ((s0.setV 1 4).setV 15 3)
    (fun t => t.getV 1 == 2 && t.getV 15 == 0) = true := by decide
theorem test_shr_AL_29 : steps 0x81F6 (((start .wrap .vy).setV 1 4).setV 15 3)
    (fun t => t.getV 1 == 1 && t.getV 15 == 1) = true := by decide
theorem test_shl_AL_32 : steps 0x812E ((s0.setV 1 0x81).setV 2 0x40)
    (fun t => t.getV 1 == 2 && t.getV 15 == 1) = true := by decide
theorem test_shl_AL_33 : steps 0x812E (((start .clip .vy).setV 1 0x81).setV 2 0x40)
    (fun t => t.getV 1 == 0x80 && t.getV 15 == 0) = true := by decide
theorem test_rnd_AL_38 : steps 0xC30F { s0 with randIn := [0xA7, 0x11] }
    (fun t => t.getV 3 == 0x07 && t.randIn == [0x11]) = true := by decide

theorem test_ldI_IM_02 : steps 0xAFFF (atI s0 0x1234) (fun t => t.i == 0x0FFF) = true := by decide
theorem test_addI_IM_04 : steps 0xF21E ((atI s0 0x0FFF).setV 2 1) (fun t => t.i == 0x1000 && t.getV 15 == 0) = true := by decide
theorem test_addI_IM_05 : steps 0xF21E ((atI s0 0xFFFF).setV 2 1) (fun t => t.i == 0 && t.getV 15 == 0) = true := by decide
theorem test_ldF_IM_08 : steps 0xF429 ((atI s0 0x0FFF).setV 4 0x1A) (fun t => t.i == 0x0032) = true := by decide
theorem test_ldB_E5_01 : steps 0xF133 ((atI s0 0x300).setV 1 0xF9)
    (fun t => t.mem.readSpan 0x300 3 == [2, 4, 9] && t.i == 0x300 && t.pc == 0x202) = true := by decide
theorem test_ldB_IM_13 : steps 0xF133 ((atI s0 0x0FFE).setV 1 0x63)
    (fun t => t.fault == some (.memBounds 0x1000) && t.mem.readSpan 0xFFE 2 == [0, 0] && t.pc == 0x200) = true := by decide
theorem test_stRegs_IM_19 : steps 0xF255 (atI ((((s0.setV 0 0x11).setV 1 0x22).setV 2 0x33).setV 3 0x44) 0x400)
    (fun t => t.mem.readSpan 0x400 4 == [0x11, 0x22, 0x33, 0] && t.i == 0x400) = true := by decide
theorem test_stRegs_IM_23 : steps 0xFF55 (atI (s0.setV 0 1) 0x01F8)
    (fun t => t.fault == some (.storeProtect 0x1F8) && t.mem.read 0x1F8 == 0 && t.pc == 0x200) = true := by decide
theorem test_ldRegs_IM_25 : steps 0xF265 (withBytes (atI (s0.setV 3 0x99) 0x400) 0x400 [0x11, 0x22, 0x33, 0x44])
    (fun t => t.getV 0 == 0x11 && t.getV 1 == 0x22 && t.getV 2 == 0x33 && t.getV 3 == 0x99 && t.i == 0x400) = true := by
  decide
theorem test_ldRegs_IM_28 : steps 0xFF65 (atI (s0.setV 0 0x55) 0x0FF1)
    (fun t => t.fault == some (.memBounds 0x1000) && t.getV 0 == 0x55) = true := by decide

theorem test_cls_DP_01 : steps 0x00E0 (withPixel (withPixel s0 0 0) 63 31)
    (fun t => row t 0 == 0 && row t 31 == 0 && ok t true && t.pc == 0x202) = true := by decide
theorem test_drw_DP_18 : steps 0xD121 (withPixel (withBytes (atI (s0.setV 1 0x39) 0x300) 0x300 [0x01]) 0 0)
    (fun t => row t 0 == 0 && t.getV 15 == 1 && ok t true) = true := by decide
theorem test_drw_DP_11 : steps 0xD121 (withBytes (atI ((start .clip .vx).setV 1 0x3C) 0x300) 0x300 [0xFF])
    (fun t => row t 0 == 0xF000000000000000 && t.getV 15 == 0) = true := by decide

theorem test_skp_KT_03 : steps 0xE29E (withKey (s0.setV 2 0x25) 5) (fun t => t.pc == 0x204) = true := by decide
theorem test_skp_KT_02 : steps 0xE29E (s0.setV 2 5) (fun t => t.pc == 0x202) = true := by decide
theorem test_sknp_KT_07 : steps 0xE2A1 (withKey (s0.setV 2 0xFF) 15) (fun t => t.pc == 0x202) = true := by decide
theorem test_sknp_KT_06 : steps 0xE2A1 (s0.setV 2 5) (fun t => t.pc == 0x204) = true := by decide
theorem test_ldVxDt_KT_09 : steps 0xF307 { s0.setV 3 0x77 with st := 9 } (fun t => t.getV 3 == 0) = true := by decide
theorem test_ldVxK_KT_10 : steps 0xF50A (s0.setV 5 0x77)
    (fun t => t.getV 5 == 0x77 && t.pc == 0x200 && ok t false) = true := by decide
theorem test_ldVxK_KT_11 : steps 0xF50A (withKey (withKey (s0.setV 5 0x77) 9) 3)
    (fun t => t.getV 5 == 3 && t.pc == 0x202) = true := by decide
theorem test_ldDtVx_KT_15 : steps 0xF315 (s0.setV 3 0x3C) (fun t => t.dt == 60 && t.st == 0) = true := by decide
theorem test_ldStVx_KT_18 : steps 0xF318 { s0 with st := 5 } (fun t => t.st == 0 && ok t false) = true := by decide

/-- UN-02. -/
theorem test_unrecognized_UN_02 : steps 0x0123 ((s0.setV 1 0x11).setV 2 0x22)
    (fun t => t.pc == 0x202 && t.out == .ok false (some ⟨0x0123, 0x0200⟩) && t.getV 1 == 0x11) = true := by decide

/-! ### Host operations -/

theorem test_tick_TK_06 : does .tick { s0 with dt := 1, st := 1 }
    (fun t => t.dt == 0 && t.st == 0 && t.out == .ticked (some .soundCueEnded)) = true := by decide
theorem test_tick_TK_02 : does .tick s0 (fun t => t.dt == 0 && t.st == 0 && t.out == .ticked none) = true := by decide
theorem test_keySet_KS_02 : does (.keySet 7 false) (withKey (withKey s0 7) 8)
    (fun t => t.keyDown 7 == false && t.keyDown 8 == true) = true := by decide
theorem test_keySet_16 : operate (.keySet 16 true) s0 = .refused (.undefinedKeyIndex 16) := by rfl
theorem test_load_RL_04 : does (.load [0xA2, 0x1E, 0xF0]) s0
    (fun t => t.mem.readSpan 0x200 4 == [0xA2, 0x1E, 0xF0, 0x00] && t.out == .loaded true) = true := by decide
theorem test_fbRead_KS_04 : does .fbRead s0 (fun t => t.out == .frame Framebuffer.clear) = true := by decide
/-- RL-07: from reset with nothing loaded the first `step` is the unrecognized word 0x0000. -/
theorem test_step_RL_07 : operate .step State.reset = .next (State.reset.unrecognized 0x0000) := by rfl
/-- R7: from reset the host's next operation is the free one. -/
theorem test_reset_host_is_free :
    step State.reset = operate (definedCall (Config.hostOp 0)) State.reset.takeOp := by rfl
/-- The first operations of program P3's kind: a tick, then a key, each where the schedule puts it. -/
theorem test_interleaving :
    (match Sys2Proof.core.run 3 ({ s0 with dt := 2 }.setSchedule [.tick, .keySet 11 true, .tick]) with
      | .next t => (t : State).dt == 0 && (t : State).keyDown 11 && (t : State).opsMade == 3
      | .fault _ | .refused _ => false) = true := by decide
/-- E6, from reset by the host operation `load`: the load, then the program's first instruction. -/
theorem test_load_then_step_E6 :
    (match step (State.reset.setSchedule [.load [0x13, 0x00], .step]) with
      | .next s => (match step s with
        | .next t => t.pc == 0x300 && ok t false
        | .fault _ | .refused _ => false)
      | .fault _ | .refused _ => false) = true := by decide
/-- FL-01, operations 1 and 6: the latch of the RET is left by `reset`. -/
theorem test_reset_FL_01 : does .reset { withBytes (s0.setV 1 5) 0x200 [0x00, 0xEE] with fault := some (.stackUnderflow 0x200) }
    (fun t => t.fault == none && t.getV 1 == 0 && t.mem.read 0x201 == 0 && t.pc == 0x200) = true := by decide
/-- The glyph spot checks of RL. -/
theorem test_glyphs : State.reset.mem.readSpan 0x023 5 = [0xF0, 0x10, 0x20, 0x40, 0x40] ∧
    State.reset.mem.readSpan 0x04B 6 = [0xF0, 0x80, 0xF0, 0x80, 0x80, 0x00] ∧
    (Config.glyphs.map BitVec.toNat).sum = 13008 := by decide
/-- FL-02: the fetch fault comes before the decoding; FL-01, operation 5: the latch before the fetch (R218). -/
theorem test_priority_FL_02 :
    step (atPc s0 0x0FFF) = .next ((atPc s0 0x0FFF).takeOp.latch (.memBounds 0x1000)) ∧
    step ((atPc s0 0x0FFF).latch (.stackUnderflow 0x200)) =
      .next (((atPc s0 0x0FFF).latch (.stackUnderflow 0x200)).takeOp.stillFaulted (.stackUnderflow 0x200)) := by
  constructor <;> rfl
/-- R210. -/
theorem test_codes : Fault.code (.stackOverflow 0) = 2 ∧ Fault.code (.stackUnderflow 0) = 3 ∧
    Fault.code (.memBounds 0) = 4 ∧ Fault.code (.storeProtect 0) = 5 := by decide

/-! ### Witnesses: for each statement with hypotheses, states and operands that meet them, clause by clause

`s0` is live, about to make a `step`, and has its pc at 0x200. A clause over a range has a witness at each end of it. -/

/-- A state with this word at its pc, about to run it. -/
def holding (s : State) (w : Nat) : State := s.withFetchWord 16 w

/-- Whether `exec` answers a next state of which `p` holds. -/
def runs (i : Instr) (s : State) (p : State → Bool) : Bool :=
  match exec i s with
  | .next t => p t
  | .fault _ | .refused _ => false

theorem witness_EncodeOfDecodeIsTheWord : decode 0xF065 = some (.ldRegs 0) ∧ decode 0x00E0 = some .cls := by decide
theorem witness_WordDecodesIffARowMatches :
    decode 0x8FFE = some (.shl 15 15) ∧ (0xF00F, 0x800E) ∈ opcodeRows ∧ rowMatches 0x8FFE (0xF00F, 0x800E) = true := by decide
/-- A word of each class of the list, and of none: the neighbours of the words that decode. -/
theorem witness_UnrecognizedWordsByClass :
    decode 0x00E1 = none ∧ decode 0x5001 = none ∧ decode 0x8008 = none ∧ decode 0x800F = none ∧ decode 0x900F = none ∧
    decode 0xE09D = none ∧ decode 0xF066 = none ∧ decode 0x800E ≠ none ∧ decode 0xF065 ≠ none := by decide
theorem witness_FetchIsTwoBytesBigEndianOrBounds :
    (atPc s0 0).pc.toNat + 1 < 4096 ∧ (atPc s0 0x0FFE).pc.toNat + 1 < 4096 ∧ (atPc s0 0x0FFF).pc.toNat = 4095 ∧
    4096 ≤ (atPc s0 0x1000).pc.toNat ∧ 4096 ≤ (atPc s0 0xFFFF).pc.toNat := by decide
theorem witness_StepRunsTheDecodedInstruction :
    (holding s0 0x8124).fault = none ∧ (holding s0 0x8124).fetch = .ok 0x8124 ∧ decode 0x8124 = some (.addReg 1 2) ∧
    (holding s0 0x8124).AboutToStep ∧ (s0.setSchedule [.keySet 3 true]).schedule = .keySet 3 true :: [] := by
  refine ⟨by decide, by rfl, by decide, rfl, rfl⟩
theorem witness_UnrecognizedWordIsADiagnosedNoOp :
    s0.fault = none ∧ s0.AboutToStep ∧ s0.fetch = .ok 0x0000 ∧ decode 0x0000 = none := by
  refine ⟨by decide, rfl, by rfl, by decide⟩
theorem witness_FetchFaultIsAFatalEntry :
    (atPc s0 0x0FFF).fault = none ∧ (atPc s0 0x0FFF).AboutToStep ∧ 4095 ≤ (atPc s0 0x0FFF).pc.toNat ∧
    4095 ≤ (atPc s0 0xFFFF).pc.toNat := ⟨rfl, rfl, by decide, by decide⟩
theorem witness_FatalFaultsArePrecise : s0.fault = none ∧ steps 0x00EE s0 (fun t => t.fault != none) = true := by decide
theorem witness_FaultedStepChangesNothing :
    (s0.latch (.storeProtect 0x1FE)).fault = some (.storeProtect 0x1FE) ∧
    (s0.latch (.storeProtect 0x1FE)).AboutToStep :=
  ⟨rfl, rfl⟩
/-- A latched state whose step answers a next state: a tick keeps the latch, a reset leaves it. -/
theorem witness_OnlyResetClearsTheLatch :
    (∃ t, step ((s0.latch (.memBounds 4096)).setSchedule [.tick]) = .next t ∧ t.fault = some (.memBounds 4096)) ∧
    ∃ t, step ((s0.latch (.memBounds 4096)).setSchedule [.reset]) = .next t ∧ t.fault = none :=
  ⟨⟨_, rfl, rfl⟩, _, rfl, rfl⟩
/-- Each of the four faults raised, from a live state. -/
theorem witness_FaultsComeOnlyFromTheirInstructions :
    runs (.call 0) (withStack s0 16 0 0) (fun t => t.fault == some (.stackOverflow 0x200)) = true ∧
    runs .ret s0 (fun t => t.fault == some (.stackUnderflow 0x200)) = true ∧
    runs (.drw 0 0 15) (atI s0 0x0FF2) (fun t => t.fault == some (.memBounds 0x1000)) = true ∧
    runs (.ldB 0) (atI s0 0xFFFF) (fun t => t.fault == some (.memBounds 0xFFFF)) = true ∧
    runs (.stRegs 15) (atI s0 0x01FF) (fun t => t.fault == some (.storeProtect 0x1FF)) = true := by decide
/-- A schedule of defined calls; the empty one of reset; one headed by a `key_set` with index 16. -/
theorem witness_EveryDefinedStepAnswersANextState :
    scheduleWellFormed (s0.setSchedule [.keySet 15 true, .load [], .reset]).schedule = true ∧
    scheduleWellFormed State.reset.schedule = true ∧
    (s0.setSchedule [.keySet 16 true]).schedule.head? = some (.keySet 16 true) ∧
    step (s0.setSchedule [.keySet 16 true]) = .refused (.undefinedKeyIndex 16) := by
  refine ⟨by decide, by decide, by decide, by rfl⟩
/-- A state with stored bytes in its memory, whose step stores another. -/
theorem witness_EveryStepKeepsMemoryCanonical :
    (holding (atI s0 0x0FFF) 0xF055).mem.wf ∧
    steps 0xF055 ((atI s0 0x0FFF).setV 0 7) (fun t => t.mem.read 0xFFF == 7) = true := by decide
theorem witness_EveryStepKeepsLowMemoryIntact :
    s0.LowMemoryIntact ∧ ∃ t, step s0 = .next t := ⟨fun _ _ => rfl, _, rfl⟩
/-- Both outcomes of each of the six skips' conditions. -/
theorem witness_SkipsWhen :
    ((s0.setV 1 7).getV 1).toNat = (7 : Byte).toNat ∧ ((s0.setV 1 7).getV 1).toNat ≠ ((s0.setV 1 7).getV 2).toNat ∧
    (withKey s0 15).keys[((s0.setV 1 0xFF).getV 1).toNat % 16]? = some true ∧ s0.keys[15]? = some false := by decide
theorem witness_CallPushesItsAddressOrOverflows :
    s0.sp.val < 16 ∧ (withStack s0 15 0 0).sp.val < 16 ∧ (withStack s0 16 0 0).sp.val = 16 := by decide
theorem witness_ReturnPopsOrUnderflows :
    0 < (withStack s0 1 0 0x200).sp.val ∧ 0 < (withStack s0 16 15 0x200).sp.val ∧ s0.sp.val = 0 := by decide
theorem witness_CallThenReturnResumesAfterTheCall : s0.sp.val < 16 ∧ (withStack s0 15 0 0).sp.val < 16 := by decide
/-- A destination that is not the flag register. -/
theorem witness_LeavesWithFlag : (1 : RegIdx) ≠ 15 := by decide
theorem witness_ShiftsByOne :
    (5 : Nat) = (match (s0.setV 1 5).params.shiftSource with | .vx => ((s0.setV 1 5).getV 1).toNat | .vy => 0) ∧
    (8 : Nat) = (match ((start .wrap .vy).setV 2 8).params.shiftSource with
      | .vx => 0 | .vy => (((start .wrap .vy).setV 2 8).getV 2).toNat) := by decide
theorem witness_RandomByteIsMasked :
    ({ s0 with randIn := [0xA7, 0x11] } : State).randIn = 0xA7 :: [0x11] ∧ s0.randIn = [] := by decide
theorem witness_BcdStoresThreeDigits :
    0x200 ≤ (atI s0 0x200).i.toNat ∧ (atI s0 0x200).i.toNat + 2 < 4096 ∧
    0x200 ≤ (atI s0 0x0FFD).i.toNat ∧ (atI s0 0x0FFD).i.toNat + 2 < 4096 := by decide
theorem witness_BulkStore :
    0x200 ≤ (atI s0 0x200).i.toNat ∧ (atI s0 0x200).i.toNat + (0 : RegIdx).toNat < 4096 ∧
    0x200 ≤ (atI s0 0x0FF0).i.toNat ∧ (atI s0 0x0FF0).i.toNat + (15 : RegIdx).toNat < 4096 := by decide
theorem witness_BulkLoad :
    (atI s0 0).i.toNat + (15 : RegIdx).toNat < 4096 ∧ (atI s0 0x0FF0).i.toNat + (15 : RegIdx).toNat < 4096 := by decide
/-- The state after the store, with the registers overwritten in between. -/
theorem witness_BulkStoreThenLoadRestores :
    ∃ t, exec (.stRegs 15) (atI s0 0x0FF0) = .next t ∧ (t.setV 3 0x99).mem = t.mem ∧ (t.setV 3 0x99).i = t.i :=
  ⟨_, rfl, rfl, rfl⟩
theorem witness_MemoryOperandFaults :
    (atI s0 0x01FF).i.toNat < 0x200 ∧ 4096 ≤ (atI s0 0x0FFE).i.toNat + 2 ∧
    4096 ≤ (atI s0 0x0FF1).i.toNat + (15 : RegIdx).toNat ∧ 4096 ≤ (atI s0 0x1000).i.toNat + (0 : RegIdx).toNat ∧
    0 < (15 : BitVec 4).toNat ∧ 4096 ≤ (atI s0 0x0FF2).i.toNat + (15 : BitVec 4).toNat - 1 := by decide
/-- IM-24: V0 and V1 stored over the next instruction. -/
theorem witness_StoreIsSeenByTheNextFetch :
    s0.fault = none ∧ (∃ t, exec (.stRegs 1) (atI s0 0x202) = .next t ∧ t.fault = none) ∧
    (atI s0 0x202).pc.toNat + 2 = (atI s0 0x202).i.toNat + (0 : RegIdx).toNat ∧
    (1 : RegIdx).toNat = (0 : RegIdx).toNat + 1 ∧ (1 : RegIdx).toNat ≤ (1 : RegIdx).toNat :=
  ⟨rfl, ⟨_, rfl, rfl⟩, rfl, rfl, by decide⟩
/-- The bounds of a draw: height 0 anywhere, height 15 up to the last byte of memory. -/
theorem witness_DrawIsXorWithTheSpriteMask :
    ((0 : BitVec 4).toNat = 0 ∨ (atI s0 0xFFFF).i.toNat + (0 : BitVec 4).toNat ≤ 4096) ∧
    ((15 : BitVec 4).toNat = 0 ∨ (atI s0 0x0FF1).i.toNat + (15 : BitVec 4).toNat ≤ 4096) := by decide
/-- A pixel that is hit and one that is not: glyph 0 at (0, 0), its row 1 being 0x90. -/
theorem witness_SpriteHits : SpriteHits s0 1 2 5 3 1 ∧ ¬SpriteHits s0 1 2 5 1 1 := by
  refine ⟨⟨1, by decide, 3, by decide, by decide, by decide⟩, ?_⟩
  rintro ⟨r, hr, c, hc, hb, hp⟩
  have h : ∀ r < 5, ∀ c < 8, (s0.mem.read (s0.i.toNat + r)).getLsbD (7 - c) = true →
      place s0.params.spriteEdge ((s0.getV 1).toNat + c) ((s0.getV 2).toNat + r) ≠ some (1, 1) := by decide
  exact h r hr c hc hb hp
/-- A collision, and a draw without one. -/
theorem witness_DrawCollision :
    (∃ px py, SpriteHits (withPixel s0 3 1) 1 2 5 px py ∧ (withPixel s0 3 1).fb.pixel px py = true) ∧
    ¬∃ px py, SpriteHits s0 1 2 5 px py ∧ s0.fb.pixel px py = true := by
  refine ⟨⟨3, 1, ⟨1, by decide, 3, by decide, by decide, by decide⟩, by decide⟩, ?_⟩
  rintro ⟨px, py, -, h⟩
  have e : s0.fb.pixel px py = false := by simp [s0, start, State.reset, Framebuffer.pixel]
  rw [e] at h
  cases h
theorem witness_DrawingTwiceRestoresTheScreen :
    (1 : RegIdx) ≠ 15 ∧ (2 : RegIdx) ≠ 15 ∧ ((5 : BitVec 4).toNat = 0 ∨ s0.i.toNat + (5 : BitVec 4).toNat ≤ 4096) ∧
    ∃ t, exec (.drw 1 2 5) s0 = .next t := ⟨by decide, by decide, by decide, _, rfl⟩
/-- The lowest and rightmost place wholly on the screen. -/
theorem witness_EdgeModesAgreeOnScreen :
    (((s0.setV 1 56).setV 2 27).getV 1).toNat + 7 ≤ 63 ∧
    (((s0.setV 1 56).setV 2 27).getV 2).toNat + (5 : BitVec 4).toNat ≤ 32 ∧
    ∃ t, exec (.drw 1 2 5) ((s0.setV 1 56).setV 2 27) = .next t := ⟨by decide, by decide, _, rfl⟩
/-- Key 0 and key 15 as the least pressed key; no key. -/
theorem witness_KeyWaitTakesTheLeastKeyOrParks :
    ((withKey s0 0).keys[0]? = some true ∧ ∀ j < 0, (withKey s0 0).keys[j]? = some false) ∧
    ((withKey s0 15).keys[15]? = some true ∧ ∀ j < 15, (withKey s0 15).keys[j]? = some false) ∧
    ∀ k < 16, s0.keys[k]? = some false := by decide
theorem witness_TickCountsBothTimersDown :
    ({ s0 with st := 1 } : State).st.toNat = 1 ∧ s0.st.toNat ≠ 1 ∧ ({ s0 with st := 2 } : State).st.toNat ≠ 1 := by decide
theorem witness_TickCommutesWithOtherInstructions :
    (∀ x, Instr.addReg 1 2 ≠ .ldVxDt x ∧ Instr.addReg 1 2 ≠ .ldDtVx x ∧ Instr.addReg 1 2 ≠ .ldStVx x) ∧
    ∃ t, exec (.addReg 1 2) s0 = .next t := ⟨by decide, _, rfl⟩
theorem witness_KeySetChangesOneKey : 0 < 16 ∧ 15 < 16 ∧ 16 ≤ 16 := by decide
theorem witness_LoadCopiesTheProgramOrFails :
    (List.replicate 3584 (0xAB : Byte)).length ≤ 3584 ∧ 3584 < (List.replicate 3585 (0xAB : Byte)).length := by
  simp only [List.length_replicate]; decide
/-- A CLS reports display_changed; a DRW reports it, or is the fatal entry. -/
theorem witness_FrameReadAndDisplayChanged :
    runs .cls s0 (fun t => t.out == .ok true none) = true ∧
    runs (.drw 1 2 15) (atI s0 0x0FF1) (fun t => t.out == .ok true none) = true ∧
    runs (.drw 1 2 15) (atI s0 0x0FF2) (fun t => t.out == .fatal (.memBounds 0x1000)) = true := by decide
/-- Each part that only named instructions change is changed by one of them. -/
theorem witness_OnlyTheNamedInstructionsChangeAPart :
    runs (.ldI 1) s0 (fun t => t.i != s0.i) = true ∧ runs (.ldDtVx 1) (s0.setV 1 1) (fun t => t.dt != s0.dt) = true ∧
    runs (.ldStVx 1) (s0.setV 1 1) (fun t => t.st != s0.st) = true ∧
    runs (.call 0) s0 (fun t => t.sp != s0.sp && t.stack != s0.stack) = true ∧
    runs (.drw 1 2 5) s0 (fun t => t.fb != s0.fb) = true ∧
    runs (.stRegs 0) ((atI s0 0x300).setV 0 1) (fun t => t.mem != s0.mem) = true ∧
    runs (.rnd 1 0) s0 (fun t => t.randDrawn != s0.randDrawn) = true := by decide
theorem witness_FlagRegisterChangesOnlyByItsWriters :
    runs (.addReg 1 2) ((s0.setV 1 0xFF).setV 2 2) (fun t => t.getV 15 != s0.getV 15) = true ∧
    runs (.ldRegs 15) s0 (fun t => t.getV 15 != s0.getV 15) = true := by decide
/-- A live state, an instruction that raises nothing in it and one that raises its fault. -/
theorem witness_PcAfterEveryInstruction :
    s0.fault = none ∧ runs (.jpV0 0xFFF) s0 (fun t => t.fault == none) = true ∧
    runs .ret s0 (fun t => t.fault != none) = true := by decide
/-- CT-05: a JP to itself. -/
theorem witness_FinishedIsAFixedPoint : (holding s0 0x1200).Finished ∧ (holding s0 0x1200).AboutToStep :=
  ⟨⟨rfl, 0x1200, 0x200, rfl, by decide, rfl⟩, rfl⟩
theorem witness_TheHostMakesAnyDefinedCall :
    (s0.setSchedule [.tick, .step]).schedule = .tick :: [.step] ∧ State.reset.schedule = [] ∧
    HostOp.WellFormed (.keySet 15 true) = true ∧ definedCall (.keySet 15 true) = .keySet 15 true := by decide
theorem witness_EveryInterleavingIsRunToItsEnd :
    scheduleWellFormed [.reset, .load [0x13, 0x00], .tick, .step, .keySet 15 true, .step, .fbRead] = true := by decide
theorem witness_KeyAndTimerReadsSeeWhatCameBetween :
    (holding s0 0xF50A).fault = none ∧ (holding s0 0xF50A).fetch = .ok (encode (.ldVxK 5)) ∧
    (∀ j < 16, (holding s0 0xF50A).keyDown j = false) ∧ (holding s0 0xF507).fetch = .ok (encode (.ldVxDt 5)) ∧
    ((holding s0 0xF50A).setSchedule [.keySet 15 true, .step]).schedule = .keySet 15 true :: .step :: [] ∧
    ((holding s0 0xF507).setSchedule [.tick, .step]).schedule = .tick :: .step :: [] := by
  refine ⟨by decide, by rfl, by decide, by rfl, rfl, rfl⟩

end Sys2Proof.Tests
end

/-! PROOFS of the statements on the host's operations (00_scope.md). -/

namespace Sys2Proof.Machine

/-! ### The step of the machine, by the operation that comes next -/

/-- The operation known to come first is the one the step makes. -/
theorem step_of_schedule {s : State} {op : HostOp} {rest : List HostOp} (h : s.schedule = op :: rest) :
    step s = operate op s.takeOp := by
  rw [step_eq, State.nextOp_cons h]

/-- A step that makes a defined call answers a next state, takes that call off those to come and counts it. -/
theorem step_next_of_wellFormed {s : State} (h : s.nextOp.WellFormed = true) :
    ∃ t, step s = .next t ∧ t.schedule = s.schedule.tail ∧ t.opsMade = s.opsMade + 1 :=
  operate_next h s.takeOp

/-- With no fault latched, a `step` operation runs the instruction that the word at the pc decodes to. -/
theorem instrStep_decoded {s : State} {w : Word} {i : Instr} (hf : s.fault = none) (hw : s.fetch = .ok w)
    (hd : decode w = some i) : instrStep s = exec i s := by
  simp only [instrStep, hf, hw, hd]

/-- The same of a machine about to step, on the state with that `step` taken off those to come (30_encoding.md R94). -/
theorem step_decoded {s : State} {w : Word} {i : Instr} (hs : s.AboutToStep) (hf : s.fault = none)
    (hw : s.fetch = .ok w) (hd : decode w = some i) : step s = exec i s.takeOp := by
  rw [step_of_aboutToStep hs]
  exact instrStep_decoded hf hw hd

/-- Defined calls known to come are made one after the other, whatever state they are made in. -/
theorem run_schedule {ops later : List HostOp} {s : State} (hops : scheduleWellFormed ops = true)
    (hs : s.schedule = ops ++ later) :
    ∃ t : State, Sys2Proof.core.run ops.length s = .next t ∧ t.schedule = later ∧
      t.opsMade = s.opsMade + ops.length := by
  induction ops generalizing s with
  | nil => exact ⟨s, rfl, hs, rfl⟩
  | cons op ops ih =>
    rw [scheduleWellFormed, List.all_cons, Bool.and_eq_true] at hops
    obtain ⟨hop, hops⟩ := hops
    have hnext : s.nextOp = op := State.nextOp_cons hs
    obtain ⟨u, hu, husch, humade⟩ := step_next_of_wellFormed (s := s) (hnext ▸ hop)
    obtain ⟨t, ht, htsch, htmade⟩ := ih hops (husch.trans (by rw [hs]; rfl))
    exact ⟨t, (core_run_succ hu _).trans ht, htsch, by rw [htmade, humade, List.length_cons]; omega⟩

/-! ### The key wait and the timer read -/

@[simp] theorem decode_encode_ldVxK (x : RegIdx) : decode (encode (.ldVxK x)) = some (.ldVxK x) := by
  simp [encode, decode, decodeClassF]

@[simp] theorem decode_encode_ldVxDt (x : RegIdx) : decode (encode (.ldVxDt x)) = some (.ldVxDt x) := by
  simp [encode, decode, decodeClassF]

/-- `key_set` of one of the sixteen keys sets that key, returns nothing and changes no other part (60_exceptions.md R228). -/
theorem hostKeySet_next {k : Nat} (hk : k < 16) (pressed : Bool) (s : State) :
    ∃ t, hostKeySet k pressed s = .next t ∧ t.keyDown k = pressed ∧ t.out = .nothing ∧ t.fetch = s.fetch ∧
      Frame (fun p => p = .key k ∨ p = .out) s t := by
  refine ⟨_, hostKeySet_defined hk pressed s, by simp [State.keyDown, hk], rfl, rfl, fun p hp => ?_⟩
  cases p with
  | key j =>
    have hne : k ≠ j := by rintro rfl; exact hp (.inl rfl)
    simp only [Part.Same, State.keyDown]
    split
    · exact Vector.getElem_set_ne hk _ hne
    · rfl
  | out => exact absurd (.inr rfl) hp
  | _ => rfl

/-- A key wait with exactly one key pressed takes that key (44_keypad_timers.md R193). -/
theorem execLdVxK_of_only_key {s : State} (x : RegIdx) {k : Nat} (hk : k < 16) (hd : s.keyDown k = true)
    (honly : ∀ j, s.keyDown j = true → j = k) :
    execLdVxK x s = .next ((s.setV x (BitVec.ofNat 8 k)).finish (s.pc + 2) false) := by
  rcases execLdVxK_cases x s with ⟨hnone, -⟩ | ⟨j, -, hj, -, e⟩
  · simp [hnone k hk] at hd
  · exact honly j hj ▸ e

/-- A key pressed between two steps, with none pressed before, is the key the waiting instruction takes. -/
theorem keySet_then_ldVxK {x : RegIdx} {s : State} {k : Nat} {later : List HostOp} (hf : s.fault = none) (hk : k < 16)
    (hw : s.fetch = .ok (encode (.ldVxK x))) (hnone : ∀ j < 16, s.keyDown j = false)
    (hs : s.schedule = .keySet k true :: .step :: later) :
    ∃ t u, step s = .next t ∧ step t = .next u ∧ (u.getV x).toNat = k ∧ u.pc = s.pc + 2 ∧ u.schedule = later := by
  obtain ⟨t, ht, hdown, -, hfetch, hframe⟩ := hostKeySet_next hk true s.takeOp
  have hpc : t.pc = s.pc := hframe .pc (by simp)
  have hfault : t.fault = none := (hframe .fault (by simp)).trans hf
  have hsch : t.schedule = .step :: later := (hframe .schedule (by simp)).trans (by simp [hs])
  have honly (j : Nat) (hj : t.keyDown j = true) : j = k := by
    by_contra hne
    have hkey : t.keyDown j = s.keyDown j := hframe (.key j) (by simpa using hne)
    rcases Nat.lt_or_ge j 16 with hlt | hge
    · simp [hkey, hnone j hlt] at hj
    · simp [State.keyDown_ge t hge] at hj
  have hstep : step t = .next ((t.takeOp.setV x (BitVec.ofNat 8 k)).finish (t.pc + 2) false) :=
    (step_decoded (State.nextOp_cons hsch) hfault (hfetch.trans hw) (decode_encode_ldVxK x)).trans
      (execLdVxK_of_only_key x hk hdown honly)
  refine ⟨t, _, (step_of_schedule hs).trans ht, hstep, ?_, by simp [hpc], by simp [hsch]⟩
  simp only [State.getV_finish, State.getV_setV_same, BitVec.toNat_ofNat]
  omega

/-- A tick between two steps is seen by the timer read: it takes DT one lower, and 0 stays 0 (R224, R258). -/
theorem tick_then_ldVxDt {x : RegIdx} {s : State} {later : List HostOp} (hf : s.fault = none)
    (hw : s.fetch = .ok (encode (.ldVxDt x))) (hs : s.schedule = .tick :: .step :: later) :
    ∃ t u, step s = .next t ∧ step t = .next u ∧ (u.getV x).toNat = s.dt.toNat - 1 ∧ u.pc = s.pc + 2 ∧
      u.schedule = later := by
  have hsch : s.takeOp.hostTick.schedule = .step :: later := by simp [hs]
  have hstep : step s.takeOp.hostTick = exec (.ldVxDt x) s.takeOp.hostTick.takeOp :=
    step_decoded (State.nextOp_cons hsch) hf hw (decode_encode_ldVxDt x)
  exact ⟨s.takeOp.hostTick, _, step_of_schedule hs, hstep.trans (completeNext_eq _), by simp [toNat_countDown],
    by simp, by simp [hs]⟩

/-! ### The obligations -/

/-- Settles O56: `nextOp` is the head of the operations to come, else a defined call, and `definedCall` keeps each one. -/
theorem theHostMakesAnyDefinedCall : Obligations.TheHostMakesAnyDefinedCall := by
  refine ⟨fun s op rest hs => State.nextOp_cons hs, fun s hs => ?_, fun op hop => definedCall_eq hop⟩
  rw [State.nextOp_nil hs]
  exact definedCall_wellFormed _

/-- Settles O57, by induction on the operations known to come: each is a defined call, so each answers a next state. -/
theorem everyInterleavingIsRunToItsEnd : Obligations.EveryInterleavingIsRunToItsEnd :=
  fun ops later s hops => run_schedule hops (State.setSchedule_schedule s (ops ++ later))

/-- Settles O58: the first operation leaves the pc and the word there, so the step after it reads what it set. -/
theorem keyAndTimerReadsSeeWhatCameBetween : Obligations.KeyAndTimerReadsSeeWhatCameBetween :=
  fun _ _ hf => ⟨fun _ _ hk hw hnone hs => keySet_then_ldVxK hf hk hw hnone hs,
    fun _ hw hs => tick_then_ldVxDt hf hw hs⟩

end Sys2Proof.Machine

/-! PROOFS of the statements on the state as a whole (10_state.md). -/

namespace Sys2Proof.Machine

/-! ### What an instruction that completes can change -/

/-- The registers an instruction writes when it completes: its destination, V[15] where it sets a flag (10_state.md R22),
V[0] to V[X] for the bulk load. -/
def WritesV (y : RegIdx) : Instr → Prop
  | .ldImm x _ | .addImm x _ | .ldReg x _ | .orReg x _ | .andReg x _ | .xorReg x _ => y = x
  | .rnd x _ | .ldVxDt x | .ldVxK x => y = x
  | .addReg x _ | .subReg x _ | .subnReg x _ | .shr x _ | .shl x _ => y = 15 ∨ y = x
  | .drw _ _ _ => y = 15
  | .ldRegs x => y.toNat < bulkCount x
  | _ => False

/-- LD B and LD [I], the two instructions that store to memory (20_memory.md R69). -/
def Stores (i : Instr) : Prop := ∃ x, i = .ldB x ∨ i = .stRegs x

/-- The parts an instruction can change when it completes, part by part (10_state.md R22 to R31; 41_alu.md R151). -/
def CanChange (i : Instr) : Part → Prop
  | .v y => WritesV y i
  | .i => ∃ x nnn, i = .ldI nnn ∨ i = .addI x ∨ i = .ldF x
  | .dt => ∃ x, i = .ldDtVx x
  | .st => ∃ x, i = .ldStVx x
  | .sp => i = .ret ∨ ∃ nnn, i = .call nnn
  | .stack _ => ∃ nnn, i = .call nnn
  | .pixel _ _ => i = .cls ∨ ∃ x y n, i = .drw x y n
  | .byte _ => Stores i
  | .randIn | .randDrawn => ∃ x nn, i = .rnd x nn
  | .pc | .out => True
  | .key _ | .fault | .params | .schedule | .opsMade => False

/-- The instruction completed: the pc is the table's (10_state.md R26), and nothing changed but what it can change. Memory is
said to be the same as a whole beside the bytes the frame speaks of. -/
structure Completes (i : Instr) (s t : State) : Prop where
  pc : t.pc = pcAfter s i
  mem : t.mem = s.mem ∨ Stores i
  frame : Frame (CanChange i) s t

/-! ### Frames of the updates -/

section
variable {changed : Part → Prop} {s t : State}

theorem Frame.refl (changed : Part → Prop) (s : State) : Frame changed s s := fun p _ => by cases p <;> rfl

/-- A part that differs is one of those that may. -/
theorem Frame.changed_of_not_same (h : Frame changed s t) {p : Part} (hp : ¬p.Same s t) : changed p :=
  by_contra fun hc => hp (h p hc)

theorem Frame.stack_eq (h : Frame changed s t) (hc : ∀ k, ¬changed (.stack k)) : t.stack = s.stack :=
  Vector.ext fun k hk => by simpa [Part.Same, hk] using h (.stack k) (hc k)

theorem Frame.fb_eq (h : Frame changed s t) (hc : ∀ x y, ¬changed (.pixel x y)) : t.fb = s.fb :=
  Framebuffer.ext_pixel fun x y => h (.pixel x y) (hc x y)

theorem frame_setV {x : RegIdx} (h : changed (.v x)) (b : Byte) : Frame changed s (s.setV x b) := by
  intro p hp
  cases p with
  | v y => exact State.getV_setV_ne s b (by rintro rfl; exact hp h)
  | _ => rfl

theorem frame_setWithFlag {x : RegIdx} (hx : changed (.v x)) (hf : changed (.v 15)) (r : Byte) (f : Bool) :
    Frame changed s (s.setWithFlag x r f) :=
  (frame_setV hx r).trans (frame_setV hf (flagByte f))

theorem frame_setRegs {bs : List Byte} (hn : bs.length ≤ 16) (h : ∀ y : RegIdx, y.toNat < bs.length → changed (.v y)) :
    Frame changed s (s.setRegs 0 bs) := by
  have hv (y : RegIdx) (hy : ¬changed (.v y)) : (s.setRegs 0 bs).getV y = s.getV y := by
    have hlen : bs.length ≤ y.toNat := Nat.le_of_not_lt fun hlt => hy (h y hlt)
    simp [State.getV_setRegs s 0 bs (by omega) y, hlen]
  exact frame_iff.2 ⟨hv, by simp⟩

theorem frame_finish (hpc : changed .pc) (hout : changed .out) (pc : Word) (d : Bool) :
    Frame changed s (s.finish pc d) := by
  intro p hp
  cases p with
  | pc => exact absurd hpc hp
  | out => exact absurd hout hp
  | _ => rfl

end

/-- An instruction that finishes at the table's pc after an update inside its frame completes. -/
theorem completes_finish {i : Instr} {s u : State} {pc : Word} (d : Bool) (hpc : pc = pcAfter s i)
    (hmem : u.mem = s.mem ∨ Stores i) (hframe : Frame (CanChange i) s u) : Completes i s (u.finish pc d) :=
  ⟨hpc, hmem, hframe.trans (frame_finish trivial trivial pc d)⟩

/-! ### The pc as the table of R26 writes it -/

theorem addrOfNNN_eq_ofNat (nnn : Addr12) : addrOfNNN nnn = BitVec.ofNat 16 nnn.toNat :=
  BitVec.eq_of_toNat_eq (by have := nnn.isLt; simp; omega)

theorem addrOfNNN_add_wideByte (nnn : Addr12) (b : Byte) :
    addrOfNNN nnn + wideByte b = BitVec.ofNat 16 (nnn.toNat + b.toNat) :=
  BitVec.eq_of_toNat_eq (by simp)

/-- An instruction takes the fatal entry, or completes. -/
theorem exec_latch_or_completes (i : Instr) (s : State) :
    (∃ c, exec i s = .next (s.latch c)) ∨ ∃ t, exec i s = .next t ∧ Completes i s t := by
  cases i with
  | ret =>
    by_cases h : s.sp.val = 0
    · exact .inl ⟨_, execRet_underflow h⟩
    · refine .inr ⟨_, execRet_pops (Nat.pos_of_ne_zero h), completes_finish _ ?_ (.inl rfl) ?_⟩
      · have hlt : s.sp.val - 1 < 16 := by omega
        simp [pcAfter, hlt]
      · exact frame_iff.2 (by simp [CanChange, State.getV, State.keyDown])
  | call nnn =>
    by_cases h : s.sp.val < 16
    · refine .inr ⟨_, execCall_pushes nnn h, completes_finish _ (addrOfNNN_eq_ofNat nnn) (.inl rfl) ?_⟩
      exact frame_iff.2 (by simp [CanChange, State.getV, State.keyDown])
    · exact .inl ⟨_, execCall_overflow nnn (by omega)⟩
  | jp nnn => exact .inr ⟨_, rfl, completes_finish _ (addrOfNNN_eq_ofNat nnn) (.inl rfl) (.refl _ s)⟩
  | jpV0 nnn => exact .inr ⟨_, rfl, completes_finish _ (addrOfNNN_add_wideByte nnn _) (.inl rfl) (.refl _ s)⟩
  | skp => exact .inr ⟨_, rfl, completes_finish _ rfl (.inl rfl) (.refl _ s)⟩
  | seImm | sneImm | seReg | sneReg | sknp =>
    exact .inr ⟨_, rfl, completes_finish _ (by simp [pcAfter, lowNibble]) (.inl rfl) (.refl _ s)⟩
  | ldImm | addImm | ldReg | orReg | andReg | xorReg | ldVxDt =>
    exact .inr ⟨_, rfl, completes_finish _ rfl (.inl rfl) (frame_setV (by rfl) _)⟩
  | addReg | subReg | subnReg | shr | shl =>
    exact .inr ⟨_, rfl, completes_finish _ rfl (.inl rfl) (frame_setWithFlag (.inr rfl) (.inl rfl) _ _)⟩
  | drw x y n =>
    rcases execDrw_cases x y n s with ⟨-, e⟩ | ⟨-, e⟩
    · exact .inl ⟨_, e⟩
    · refine .inr ⟨_, e, completes_finish _ rfl (.inl rfl) (Frame.trans ?_ (frame_setV (by rfl) _))⟩
      exact frame_iff.2 (by simp [CanChange, State.getV, State.keyDown])
  | ldVxK x =>
    rcases execLdVxK_cases x s with ⟨hnone, e⟩ | ⟨k, hk, hd, -, e⟩
    · refine .inr ⟨_, e, completes_finish _ ?_ (.inl rfl) (.refl _ s)⟩
      exact (if_neg (by simpa using hnone)).symm
    · refine .inr ⟨_, e, completes_finish _ ?_ (.inl rfl) (frame_setV (by rfl) _)⟩
      exact (if_pos ⟨k, hk, hd⟩).symm
  | ldB x =>
    rcases execLdB_cases x s with ⟨-, e⟩ | ⟨-, e⟩ | ⟨-, e⟩
    · exact .inl ⟨_, e⟩
    · exact .inl ⟨_, e⟩
    · refine .inr ⟨_, e, completes_finish _ rfl (.inr ⟨x, .inl rfl⟩) ?_⟩
      exact frame_iff.2 (by simp [CanChange, Stores, State.getV, State.keyDown])
  | stRegs x =>
    rcases execStRegs_cases x s with ⟨-, e⟩ | ⟨-, e⟩ | ⟨-, e⟩
    · exact .inl ⟨_, e⟩
    · exact .inl ⟨_, e⟩
    · refine .inr ⟨_, e, completes_finish _ rfl (.inr ⟨x, .inr rfl⟩) ?_⟩
      exact frame_iff.2 (by simp [CanChange, Stores, State.getV, State.keyDown])
  | ldRegs x =>
    rcases execLdRegs_cases x s with ⟨-, e⟩ | ⟨-, e⟩
    · exact .inl ⟨_, e⟩
    · refine .inr ⟨_, e, completes_finish _ (by simp [pcAfter]) (.inl (by simp)) (frame_setRegs ?_ ?_)⟩
      · simpa using bulkCount_le x
      · simp [CanChange, WritesV]
  | rnd x nn =>
    refine .inr ⟨_, rfl, completes_finish _ rfl (.inl rfl) (Frame.trans ?_ (frame_setV (by rfl) _))⟩
    exact frame_iff.2 (by simp [CanChange])
  | cls | ldI | addI | ldF | ldDtVx | ldStVx =>
    refine .inr ⟨_, rfl, completes_finish _ rfl (.inl rfl) ?_⟩
    exact frame_iff.2 (by simp [CanChange, State.getV, State.keyDown])

/-- The same of the state an instruction is known to answer. -/
theorem latched_or_completes {i : Instr} {s t : State} (h : exec i s = .next t) :
    (∃ c, t = s.latch c) ∨ Completes i s t := by
  rcases exec_latch_or_completes i s with ⟨c, e⟩ | ⟨u, e, hu⟩
  · exact .inl ⟨c, Host.Outcome.next.inj (h.symm.trans e)⟩
  · exact .inr (Host.Outcome.next.inj (h.symm.trans e) ▸ hu)

/-! ### The reset state -/

@[simp] theorem read_reset (a : Nat) : State.reset.mem.read a = Memory.unlisted a := rfl

theorem unlisted_of_lt {a : Nat} (h : a < 80) : some (Memory.unlisted a) = Config.glyphs[a]? := by
  have hlen : a < Config.glyphs.length := h
  simp [Memory.unlisted, hlen]

theorem unlisted_of_le {a : Nat} (h : 80 ≤ a) : Memory.unlisted a = 0 :=
  List.getD_eq_default _ _ h

@[simp] theorem getV_reset (x : RegIdx) : State.reset.getV x = 0 := Vector.getElem_replicate _

@[simp] theorem pixel_reset (x y : Nat) : State.reset.fb.pixel x y = false := Framebuffer.pixel_clear x y

@[simp] theorem keyDown_reset (k : Nat) : State.reset.keyDown k = false := by
  simp [State.keyDown, State.reset]

/-! ### The obligations -/

/-- Settles O52: a fatal entry changes FAULT and the result alone, and a completion keeps to the instruction's frame. -/
theorem onlyTheNamedInstructionsChangeAPart : Obligations.OnlyTheNamedInstructionsChangeAPart := by
  intro i s t h
  rcases latched_or_completes h with ⟨c, rfl⟩ | ⟨-, hmem, hframe⟩
  · simp
  · have changed {p : Part} (hp : ¬p.Same s t) : CanChange i p := hframe.changed_of_not_same hp
    exact ⟨fun k => hframe (.key k) id, hframe .params id, hframe .schedule id, hframe .opsMade id,
      changed (p := .i), changed (p := .dt), changed (p := .st), changed (p := .sp),
      fun hne => by_contra fun hc => hne (hframe.stack_eq fun _ => hc),
      fun hne => by_contra fun hc => hne (hframe.fb_eq fun _ _ => hc),
      hmem.resolve_left, Or.rec (changed (p := .randDrawn)) (changed (p := .randIn))⟩

/-- Settles O53: V[15] is a register the instruction writes, and those that write it are the ones listed. -/
theorem flagRegisterChangesOnlyByItsWriters : Obligations.FlagRegisterChangesOnlyByItsWriters := by
  intro i s t h hne
  rcases latched_or_completes h with ⟨c, rfl⟩ | hcompletes
  · exact absurd rfl hne
  · have hw : WritesV 15 i := hcompletes.frame.changed_of_not_same (p := .v 15) hne
    cases i with
    | ldRegs x =>
      have hx : x = 15 := BitVec.eq_of_toNat_eq (by have := x.isLt; simp [WritesV, bulkCount] at hw ⊢; omega)
      simp [hx]
    | addReg | subReg | subnReg | shr | shl | drw => simp
    | ldImm | addImm | ldReg | orReg | andReg | xorReg | rnd | ldVxDt | ldVxK => cases hw; simp
    | _ => exact hw.elim

/-- Settles O54: a completion leaves FAULT none and the table's pc; a fatal entry sets FAULT and leaves the pc. -/
theorem pcAfterEveryInstruction : Obligations.PcAfterEveryInstruction := by
  intro i s t hf h
  rcases latched_or_completes h with ⟨c, rfl⟩ | ⟨hpc, -, hframe⟩
  · exact ⟨fun hnone => by simp at hnone, fun _ => rfl⟩
  · have hfault : t.fault = none := (hframe .fault id).trans hf
    exact ⟨fun _ => hpc, fun hsome => absurd hfault hsome⟩

/-- Settles O18: at reset memory lists no cell and no operation is known to come. -/
theorem resetMeetsTheInvariants : Obligations.ResetMeetsTheInvariants :=
  ⟨⟨List.Pairwise.nil, by simp [State.reset]⟩, fun a _ => read_reset a, rfl⟩

/-- Settles O19: each piece of state read off `State.reset`, memory through what an unlisted address holds. -/
theorem resetValues : Obligations.ResetValues := by
  refine ⟨getV_reset, rfl, rfl, rfl, fun k hk => ?_, rfl, rfl, pixel_reset, keyDown_reset, fun a ha => ?_,
    fun a ha => ?_, rfl⟩
  · simp [State.reset, hk]
  · rw [read_reset, unlisted_of_lt ha]
  · rw [read_reset, unlisted_of_le ha]

end Sys2Proof.Machine

/-! PROOFS of the statements on memory (20_memory.md). -/

namespace Sys2Proof.Machine

/-! ### Invariants of memory -/

/-- What empty memory has and what writing bytes inside the writable region keeps, every step keeps (20_memory.md R69). -/
theorem step_keeps_memory {P : Memory → Prop} (hempty : P [])
    (hwrite : ∀ m a bs, Config.loadOffset ≤ a → a + bs.length ≤ Config.memSize → P m → P (m.writeSpan a bs))
    {s t : State} (hs : P s.mem) (h : step s = .next t) : P t.mem := by
  rcases step_mem h with hsame | hnil | ⟨a, bs, hlow, hhigh, hwritten⟩
  · exact hsame ▸ hs
  · exact hnil ▸ hempty
  · exact hwritten ▸ hwrite s.mem a bs hlow hhigh hs

theorem Memory.wf_nil : Memory.wf [] := ⟨List.Pairwise.nil, by simp⟩

/-- Every address below LOAD_OFFSET reads as its reset contents: `State.LowMemoryIntact` of the memory alone. -/
def Memory.LowIntact (m : Memory) : Prop := ∀ a < Config.loadOffset, m.read a = Memory.unlisted a

theorem State.lowMemoryIntact_iff {s : State} : s.LowMemoryIntact ↔ s.mem.LowIntact := Iff.rfl

theorem Memory.lowIntact_nil : Memory.LowIntact [] := fun a _ => Memory.read_nil a

theorem Memory.writeSpan_lowIntact {m : Memory} (h : m.LowIntact) {a : Nat} (ha : Config.loadOffset ≤ a)
    (bs : List Byte) : (m.writeSpan a bs).LowIntact :=
  fun a' ha' => (Memory.read_writeSpan_other m a bs (.inl (Nat.lt_of_lt_of_le ha' ha))).trans (h a' ha')

/-! ### The word of two bytes -/

theorem toNat_wordOfBytes (b0 b1 : Byte) : (wordOfBytes b0 b1).toNat = b0.toNat * 256 + b1.toNat := by
  rw [wordOfBytes, BitVec.toNat_append, ← Nat.shiftLeft_add_eq_or_of_lt b1.isLt, Nat.shiftLeft_eq]

/-! ### A bulk store and the fetch after it -/

/-- The cell at `I + y` of a bulk store holds `V[y]` (42_index_memory.md R164). -/
theorem Memory.read_writeSpan_firstRegs (m : Memory) (a : Nat) (s : State) {x y : RegIdx} (h : y.toNat ≤ x.toNat) :
    (m.writeSpan a (s.firstRegs (bulkCount x))).read (a + y.toNat) = s.getV y := by
  have hcount : y.toNat < bulkCount x := Nat.lt_succ_of_le h
  simp [Memory.read_writeSpan, State.getElem?_firstRegs, hcount]

/-- A bulk store that leaves FAULT none stored its registers inside memory and went on to the next word. -/
theorem exec_stRegs_completes {x : RegIdx} {s t : State} (h : exec (.stRegs x) s = .next t) (hf : t.fault = none) :
    s.base + bulkCount x ≤ Config.memSize ∧ t.pc = s.pc + 2 ∧
      t.mem = s.mem.writeSpan s.base (s.firstRegs (bulkCount x)) := by
  rcases execStRegs_cases x s with ⟨-, e⟩ | ⟨-, e⟩ | ⟨⟨-, hhigh⟩, e⟩ <;> cases h.symm.trans e
  · cases hf
  · cases hf
  · exact ⟨hhigh, rfl, rfl⟩

/-! ### A fetch that fails -/

/-- From the last address of memory upward a fetch raises MemBounds with the first address outside (20_memory.md R68). -/
theorem State.fetch_outside {s : State} (h : 4095 ≤ s.pc.toNat) :
    s.fetch = .error (.memBounds (max s.pc.toNat 4096)) :=
  State.fetch_error.2 ⟨Nat.add_le_add_right h 2, rfl⟩

/-- With no fault latched, a `step` operation whose fetch fails takes the fatal entry (30_encoding.md R94). -/
theorem instrStep_of_fetch_error {s : State} {c : Fault} (hf : s.fault = none) (hw : s.fetch = .error c) :
    instrStep s = .next (s.latch c) := by
  simp only [instrStep, hf, hw, raise_eq]

/-! ### The obligations -/

/-- Settles O16: an erased or inserted cell below MEM_SIZE leaves the form as it was, and empty memory has it. -/
theorem everyStepKeepsMemoryCanonical : Obligations.EveryStepKeepsMemoryCanonical :=
  fun _ _ hs h => step_keeps_memory Memory.wf_nil
    (fun _ a bs _ hhigh hm => Memory.writeSpan_wf hm a bs (.inr hhigh)) hs h

/-- Settles O17: no write of a step begins below LOAD_OFFSET, and empty memory reads as its reset contents. -/
theorem everyStepKeepsLowMemoryIntact : Obligations.EveryStepKeepsLowMemoryIntact :=
  fun _ _ hs h => State.lowMemoryIntact_iff.2 <| step_keeps_memory Memory.lowIntact_nil
    (fun _ _ bs hlow _ hm => Memory.writeSpan_lowIntact hm hlow bs) (State.lowMemoryIntact_iff.1 hs) h

/-- Settles O7: the fetch succeeds exactly when both bytes lie in memory, and else names the first that does not. -/
theorem fetchIsTwoBytesBigEndianOrBounds : Obligations.FetchIsTwoBytesBigEndianOrBounds := by
  refine fun s => ⟨fun h => ⟨_, State.fetch_ok.2 ⟨h, rfl⟩, toNat_wordOfBytes _ _⟩, fun h => ?_, fun h => ?_⟩
  · rw [State.fetch_outside h.ge, h]; rfl
  · rw [State.fetch_outside (by omega), max_eq_left h]

/-- Settles O38: the store completed, so the two cells at the new pc are those of V[j] and V[j + 1]. -/
theorem storeIsSeenByTheNextFetch : Obligations.StoreIsSeenByTheNextFetch := by
  intro x j k s t _ h hf hpc hk hkx
  obtain ⟨hroom, htpc, htmem⟩ := exec_stRegs_completes h hf
  have hend : s.i.toNat + x.toNat < 4096 := hroom
  have hnowrap : s.pc.toNat + 2 < 2 ^ 16 := by omega
  have hj : t.pc.toNat = s.base + j.toNat := by
    rw [htpc, BitVec.toNat_add, State.base, ← hpc]
    exact Nat.mod_eq_of_lt hnowrap
  have hk1 : t.pc.toNat + 1 = s.base + k.toNat := by omega
  have hin : t.pc.toNat + 1 < 4096 := by rw [hk1, State.base]; omega
  refine State.fetch_ok.2 ⟨hin, ?_⟩
  rw [hk1, hj, htmem, Memory.read_writeSpan_firstRegs _ _ _ (by omega), Memory.read_writeSpan_firstRegs _ _ _ hkx]

/-- Settles O10: the step is the `step` operation, whose fetch fails and latches that fault. -/
theorem fetchFaultIsAFatalEntry : Obligations.FetchFaultIsAFatalEntry :=
  fun s hf hs hpc => ⟨_, (step_of_aboutToStep hs).trans
    (instrStep_of_fetch_error hf ((State.fetch_takeOp s).trans (State.fetch_outside hpc))), fatalEntry_latch _ _⟩

end Sys2Proof.Machine

/-! PROOFS of the statements on the instruction word (30_encoding.md). -/

namespace Sys2Proof.Machine

/-! ### The fields as numbers (30_encoding.md R91) -/

section
variable (w : Word)

/-- Bits `lo` to `lo + len - 1` of a word, as a number. -/
theorem toNat_field (lo len : Nat) : (w.extractLsb' lo len).toNat = w.toNat / 2 ^ lo % 2 ^ len := by
  rw [BitVec.extractLsb'_toNat, Nat.shiftRight_eq_div_pow]

/-- The same of a field that ends at bit 0. -/
theorem toNat_lowField (len : Nat) : (w.extractLsb' 0 len).toNat = w.toNat % 2 ^ len := by
  rw [toNat_field, pow_zero, Nat.div_one]

theorem toNat_fieldOp : (fieldOp w).toNat = w.toNat / 4096 :=
  (toNat_field w 12 4).trans (Nat.mod_eq_of_lt (Nat.div_lt_of_lt_mul w.isLt))

theorem toNat_fieldX : (fieldX w).toNat = w.toNat / 256 % 16 := toNat_field w 8 4

theorem toNat_fieldY : (fieldY w).toNat = w.toNat / 16 % 16 := toNat_field w 4 4

theorem toNat_fieldN : (fieldN w).toNat = w.toNat % 16 := toNat_lowField w 4

theorem toNat_fieldNN : (fieldNN w).toNat = w.toNat % 256 := toNat_lowField w 8

theorem toNat_fieldNNN : (fieldNNN w).toNat = w.toNat % 4096 := toNat_lowField w 12

theorem fieldNN_wordOfBytes (b0 b1 : Byte) : fieldNN (wordOfBytes b0 b1) = b1 := by
  apply BitVec.eq_of_toNat_eq
  rw [toNat_fieldNN, toNat_wordOfBytes]
  omega

/-! ### A word put together again from its fields, format by format (30_encoding.md R92) -/

@[simp] theorem encNNN_fields : encNNN (fieldOp w) (fieldNNN w) = w := by
  refine (BitVec.extractLsb'_append_extractLsb'_eq_extractLsb' (by rfl)).trans ?_
  exact BitVec.extractLsb'_eq_self

@[simp] theorem encXNN_fields : encXNN (fieldOp w) (fieldX w) (fieldNN w) = w := by
  have hhigh : fieldOp w ++ fieldX w = w.extractLsb' 8 (4 + 4) :=
    BitVec.extractLsb'_append_extractLsb'_eq_extractLsb' (by rfl)
  rw [encXNN, hhigh]
  refine (BitVec.extractLsb'_append_extractLsb'_eq_extractLsb' (by rfl)).trans ?_
  exact BitVec.extractLsb'_eq_self

@[simp] theorem encXYN_fields : encXYN (fieldOp w) (fieldX w) (fieldY w) (fieldN w) = w := by
  have hlow : fieldY w ++ fieldN w = fieldNN w :=
    BitVec.extractLsb'_append_extractLsb'_eq_extractLsb' (by rfl)
  refine Eq.trans ?_ (encXNN_fields w)
  rw [encXNN, ← hlow]
  exact BitVec.append_assoc

end

/-! ### Encode, then decode -/

/-- The OP of an encoded word selects the instruction, in the classes 8, E and F together with the N or NN. -/
theorem decode_encode (i : Instr) : decode (encode i) = some i := by
  cases i with
  | cls | ret => rfl
  | jp | call | ldI | jpV0 | seImm | sneImm | ldImm | addImm | rnd | seReg | sneReg | drw => simp [encode, decode]
  | ldReg | orReg | andReg | xorReg | addReg | subReg | shr | subnReg | shl => simp [encode, decode, decodeClass8]
  | skp | sknp => simp [encode, decode, decodeClassE]
  | ldVxK x => exact decode_encode_ldVxK x
  | ldVxDt x => exact decode_encode_ldVxDt x
  | ldDtVx | ldStVx | addI | ldF | ldB | stRegs | ldRegs => simp [encode, decode, decodeClassF]

/-! ### Decode, then encode -/

section
variable {w : Word}

/-- A word with this opcode class is the NNN encoding with it; the same of the other formats below. -/
theorem encNNN_of_fields {op : Nat} (hop : (fieldOp w).toNat = op) :
    encNNN (BitVec.ofNat 4 op) (fieldNNN w) = w := by
  subst hop; simp

theorem encXNN_of_fields {op : Nat} (hop : (fieldOp w).toNat = op) :
    encXNN (BitVec.ofNat 4 op) (fieldX w) (fieldNN w) = w := by
  subst hop; simp

theorem encX_of_fields {op nn : Nat} (hop : (fieldOp w).toNat = op) (hnn : (fieldNN w).toNat = nn) :
    encXNN (BitVec.ofNat 4 op) (fieldX w) (BitVec.ofNat 8 nn) = w := by
  subst hop; subst hnn; simp

theorem encXYN_of_fields {op : Nat} (hop : (fieldOp w).toNat = op) :
    encXYN (BitVec.ofNat 4 op) (fieldX w) (fieldY w) (fieldN w) = w := by
  subst hop; simp

theorem encXY_of_fields {op n : Nat} (hop : (fieldOp w).toNat = op) (hn : (fieldN w).toNat = n) :
    encXYN (BitVec.ofNat 4 op) (fieldX w) (fieldY w) (BitVec.ofNat 4 n) = w := by
  subst hop; subst hn; simp

variable {i : Instr}

theorem encode_of_decodeClass0 (h : decodeClass0 w = some i) : encode i = w := by
  unfold decodeClass0 at h
  split at h
  case isTrue hw => cases h; exact hw.symm
  split at h
  case isTrue hw => cases h; exact hw.symm
  cases h

theorem encode_of_decodeClass8 (hop : (fieldOp w).toNat = 8) (h : decodeClass8 w = some i) : encode i = w := by
  unfold decodeClass8 at h
  split at h <;> cases h <;> exact encXY_of_fields hop ‹_›

theorem encode_of_decodeClassE (hop : (fieldOp w).toNat = 14) (h : decodeClassE w = some i) : encode i = w := by
  unfold decodeClassE at h
  split at h <;> cases h <;> exact encX_of_fields hop ‹_›

theorem encode_of_decodeClassF (hop : (fieldOp w).toNat = 15) (h : decodeClassF w = some i) : encode i = w := by
  unfold decodeClassF at h
  split at h <;> cases h <;> exact encX_of_fields hop ‹_›

/-- The cases are the opcode classes 0 to F, in order. -/
theorem encode_of_decode (h : decode w = some i) : encode i = w := by
  have hlt : (fieldOp w).toNat < 16 := (fieldOp w).isLt
  rw [decode] at h
  generalize hop : (fieldOp w).toNat = op at h hlt
  interval_cases op
  · exact encode_of_decodeClass0 h
  · cases h; exact encNNN_of_fields hop
  · cases h; exact encNNN_of_fields hop
  · cases h; exact encXNN_of_fields hop
  · cases h; exact encXNN_of_fields hop
  · obtain ⟨hn, e⟩ := Option.ite_none_right_eq_some.1 h
    cases e; exact encXY_of_fields hop (congrArg BitVec.toNat hn)
  · cases h; exact encXNN_of_fields hop
  · cases h; exact encXNN_of_fields hop
  · exact encode_of_decodeClass8 hop h
  · obtain ⟨hn, e⟩ := Option.ite_none_right_eq_some.1 h
    cases e; exact encXY_of_fields hop (congrArg BitVec.toNat hn)
  · cases h; exact encNNN_of_fields hop
  · cases h; exact encNNN_of_fields hop
  · cases h; exact encXNN_of_fields hop
  · cases h; exact encXYN_of_fields hop
  · exact encode_of_decodeClassE hop h
  · exact encode_of_decodeClassF hop h

end

/-! ### The rows of the opcode table (30_encoding.md R95, R96) -/

theorem maskMatch_mem_opcodeRows (i : Instr) : i.maskMatch ∈ opcodeRows := by
  cases i <;> simp only [Instr.maskMatch] <;> decide

section
open Laws.EncodesInRow

/-- The encoding of an instruction matches the instruction's own row. -/
theorem rowMatches_encode (i : Instr) : rowMatches (encode i) i.maskMatch = true := by
  cases i
  exacts [cls, ret, jp _, call _, seImm _ _, sneImm _ _, seReg _ _, ldImm _ _, addImm _ _, ldReg _ _, orReg _ _,
    andReg _ _, xorReg _ _, addReg _ _, subReg _ _, shr _ _, subnReg _ _, shl _ _, sneReg _ _, ldI _, jpV0 _, rnd _ _,
    drw _ _ _, skp _, sknp _, ldVxDt _, ldVxK _, ldDtVx _, ldStVx _, addI _, ldF _, ldB _, stRegs _, ldRegs _]

end

section
variable {w mask m : Word}

/-- Where a mask covers a field of the word, the field is that of the match. -/
theorem field_of_and {lo len : Nat} (h : w &&& mask = m) (hmask : mask.extractLsb' lo len = BitVec.allOnes len) :
    w.extractLsb' lo len = m.extractLsb' lo len := by
  rw [← h, BitVec.extractLsb'_and, hmask, BitVec.and_allOnes]

theorem fieldOp_of_and (h : w &&& mask = m) (hmask : fieldOp mask = BitVec.allOnes 4 := by decide) :
    fieldOp w = fieldOp m :=
  field_of_and h hmask

theorem fieldN_of_and (h : w &&& mask = m) (hmask : fieldN mask = BitVec.allOnes 4 := by decide) :
    fieldN w = fieldN m :=
  field_of_and h hmask

theorem fieldNN_of_and (h : w &&& mask = m) (hmask : fieldNN mask = BitVec.allOnes 8 := by decide) :
    fieldNN w = fieldNN m :=
  field_of_and h hmask

end

/-- A word that matches the row of `i` decodes to an instruction of that row: the mask covers the fields the decoder
selects by. -/
theorem decode_of_rowMatches {w : Word} {i : Instr} (h : rowMatches w i.maskMatch = true) :
    (decode w).map Instr.maskMatch = some i.maskMatch := by
  replace h : w &&& i.maskMatch.1 = i.maskMatch.2 := eq_of_beq h
  cases i <;> simp only [Instr.maskMatch] at h
  case cls | ret =>
    rw [show w = _ from BitVec.and_allOnes.symm.trans h]
    rfl
  case jp | call | seImm | sneImm | ldImm | addImm | ldI | jpV0 | rnd | drw =>
    simp only [decode, fieldOp_of_and h]
    rfl
  case seReg | sneReg =>
    simp only [decode, fieldOp_of_and h, fieldN_of_and h]
    rfl
  case ldReg | orReg | andReg | xorReg | addReg | subReg | shr | subnReg | shl =>
    simp only [decode, decodeClass8, fieldOp_of_and h, fieldN_of_and h]
    rfl
  case skp | sknp =>
    simp only [decode, decodeClassE, fieldOp_of_and h, fieldNN_of_and h]
    rfl
  case ldVxDt | ldVxK | ldDtVx | ldStVx | addI | ldF | ldB | stRegs | ldRegs =>
    simp only [decode, decodeClassF, fieldOp_of_and h, fieldNN_of_and h]
    rfl

/-- The rows of the table that match a word are the rows of what it decodes to: none, or the one. -/
theorem row_matches_iff {w : Word} {r : Word × Word} :
    (r ∈ opcodeRows ∧ rowMatches w r = true) ↔ ∃ i, decode w = some i ∧ i.maskMatch = r := by
  constructor
  · rintro ⟨hr, h⟩
    obtain ⟨i, -, rfl⟩ := List.mem_map.1 hr
    exact Option.map_eq_some_iff.1 (decode_of_rowMatches h)
  · rintro ⟨i, hd, rfl⟩
    exact ⟨maskMatch_mem_opcodeRows i, encode_of_decode hd ▸ rowMatches_encode i⟩

/-! ### The unrecognized words (30_encoding.md R96) -/

theorem decodeClass0_eq_none {w : Word} : decodeClass0 w = none ↔ w ≠ 0x00E0 ∧ w ≠ 0x00EE := by
  rw [decodeClass0]
  split_ifs <;> simp [*]

theorem decodeClass8_eq_none {w : Word} :
    decodeClass8 w = none ↔ w.toNat % 16 ∈ [0x8, 0x9, 0xA, 0xB, 0xC, 0xD, 0xF] := by
  have hlt : w.toNat % 16 < 16 := Nat.mod_lt _ (by decide)
  rw [decodeClass8, toNat_fieldN]
  generalize w.toNat % 16 = n at hlt ⊢
  interval_cases n <;> simp

theorem decodeClassE_eq_none {w : Word} : decodeClassE w = none ↔ w.toNat % 256 ∉ [0x9E, 0xA1] := by
  rw [decodeClassE, toNat_fieldNN]
  split <;> simp_all

theorem decodeClassF_eq_none {w : Word} :
    decodeClassF w = none ↔ w.toNat % 256 ∉ [0x07, 0x0A, 0x15, 0x18, 0x1E, 0x29, 0x33, 0x55, 0x65] := by
  rw [decodeClassF, toNat_fieldNN]
  split <;> simp_all

theorem fieldN_eq_zero_iff {w : Word} : fieldN w = 0#4 ↔ w.toNat % 16 = 0 := by
  rw [← toNat_fieldN, BitVec.toNat_eq]
  rfl

/-! ### A `step` operation with a fault latched -/

/-- With a fault latched, a `step` operation answers the latched cause (30_encoding.md R94). -/
theorem instrStep_of_fault {s : State} {c : Fault} (hf : s.fault = some c) :
    instrStep s = .next (s.stillFaulted c) := by
  simp only [instrStep, hf]

theorem frame_stillFaulted (s : State) (c : Fault) : Frame (fun p => p = .out) s (s.stillFaulted c) :=
  frame_iff.2 (by simp)

/-! ### The obligations -/

/-- Settles O1: each format gives its fields back, and they select the instruction. -/
theorem decodeOfEncodeIsTheInstruction : Obligations.DecodeOfEncodeIsTheInstruction := decode_encode

/-- Settles O2: what the decoder selects by and what it keeps as operands are together all sixteen bits. -/
theorem encodeOfDecodeIsTheWord : Obligations.EncodeOfDecodeIsTheWord := fun _ _ h => encode_of_decode h

/-- Settles O3: the rows that match a word are the rows of what it decodes to, and that is one instruction. -/
theorem wordDecodesIffARowMatches : Obligations.WordDecodesIffARowMatches := by
  refine ⟨fun w => ?_, fun w i hd => (row_matches_iff.2 ⟨i, hd, rfl⟩).2, fun w r₁ h₁ r₂ h₂ hm₁ hm₂ => ?_⟩
  · rw [Bool.eq_iff_iff, Option.isSome_iff_exists, List.any_eq_true]
    exact ⟨fun ⟨i, hd⟩ => ⟨i.maskMatch, row_matches_iff.2 ⟨i, hd, rfl⟩⟩,
      fun ⟨_, hr⟩ => (row_matches_iff.1 hr).imp fun _ => And.left⟩
  · obtain ⟨i, hi, rfl⟩ := row_matches_iff.1 ⟨h₁, hm₁⟩
    obtain ⟨j, hj, rfl⟩ := row_matches_iff.1 ⟨h₂, hm₂⟩
    rw [Option.some.inj (hi.symm.trans hj)]

/-- Settles O4, opcode class by opcode class: the classes 0, 5, 8, 9, E and F each have their own list. -/
theorem unrecognizedWordsByClass : Obligations.UnrecognizedWordsByClass := by
  intro w
  have hlt : w.toNat / 4096 < 16 := Nat.div_lt_of_lt_mul w.isLt
  rw [decode, toNat_fieldOp]
  generalize w.toNat / 4096 = op at hlt ⊢
  interval_cases op <;>
    simp [decodeClass0_eq_none, decodeClass8_eq_none, decodeClassE_eq_none, decodeClassF_eq_none, fieldN_eq_zero_iff]

/-- Settles O6: a field is a quotient and a remainder of the word, and the word of two bytes is `b0 * 256 + b1`. -/
theorem fieldsAreTheirBits : Obligations.FieldsAreTheirBits := by
  constructor
  · intro w
    simp only [toNat_fieldOp, toNat_fieldX, toNat_fieldY, toNat_fieldN, toNat_fieldNN, toNat_fieldNNN,
      true_and]
    omega
  · intro b0 b1
    have h1 := b1.isLt
    simp only [toNat_fieldOp, toNat_fieldX, toNat_fieldY, toNat_fieldN, toNat_fieldNNN, fieldNN_wordOfBytes,
      toNat_wordOfBytes, true_and]
    omega

/-- Settles O5, by running the decoder on the nine words. -/
theorem tableWordsDecode : Obligations.TableWordsDecode := by
  unfold Obligations.TableWordsDecode
  decide

/-- Settles O8: `nextOp` is the head of the operations to come, and `takeOp` takes it off and counts it. -/
theorem stepRunsTheDecodedInstruction : Obligations.StepRunsTheDecodedInstruction := by
  refine ⟨fun s w i hf hw hd hs => step_decoded hs hf hw hd, fun s op rest hs => ?_⟩
  rw [step_of_schedule hs, State.takeOp, hs, List.tail_cons]

/-- Settles O12: the step is the `step` operation, which looks at the latch first. -/
theorem faultedStepChangesNothing : Obligations.FaultedStepChangesNothing :=
  fun s c hf hs => ⟨s.takeOp.stillFaulted c, (step_of_aboutToStep hs).trans (instrStep_of_fault hf), rfl,
    frame_stillFaulted s.takeOp c⟩

end Sys2Proof.Machine

/-! PROOFS of the statements on control transfer (40_control_transfer.md). -/

namespace Sys2Proof.Machine

/-! ### Jumps and skips -/

/-- A completion changes the pc and the result alone. -/
theorem frame_finish_pc_out (s : State) (pc : Word) (d : Bool) :
    Frame (fun p => p = .pc ∨ p = .out) s (s.finish pc d) :=
  frame_finish (.inl rfl) (.inr rfl) pc d

/-- An instruction that completes as a skip on a test skips when what is tested holds (40_control_transfer.md R120). -/
theorem skipsWhen_of_completeSkip {i : Instr} {s : State} {test : Bool} {condition : Prop}
    (h : exec i s = completeSkip s test) (htest : test = true ↔ condition) : SkipsWhen i s condition := by
  refine ⟨_, h, fun hc => ?_, fun hc => ?_, rfl, frame_finish_pc_out s _ false⟩
  · rw [if_pos (htest.2 hc)]
    exact BitVec.toNat_add s.pc 4
  · rw [if_neg (hc ∘ htest.1)]
    exact BitVec.toNat_add s.pc 2

/-- The skips compare register values as words, the statements compare them as numbers. -/
theorem beq_iff_toNat_eq {w : Nat} {a b : BitVec w} : (a == b) = true ↔ a.toNat = b.toNat :=
  beq_iff_eq.trans BitVec.toNat_inj.symm

theorem bne_iff_toNat_ne {w : Nat} {a b : BitVec w} : (a != b) = true ↔ a.toNat ≠ b.toNat :=
  bne_iff_ne.trans BitVec.toNat_inj.symm.not

/-! ### The call stack -/

/-- CALL with a slot free: the slot at SP takes the address of the CALL, and SP is raised (40_control_transfer.md R123). -/
theorem exec_call_pushes (nnn : Addr12) {s : State} (h : s.sp.val < 16) :
    ∃ t, exec (.call nnn) s = .next t ∧ t.stack[s.sp.val]? = some s.pc ∧ t.sp.val = s.sp.val + 1 ∧
      EndsAt t (addrOfNNN nnn) false ∧
      Frame (fun p => p = .stack s.sp.val ∨ p = .sp ∨ p = .pc ∨ p = .out) s t := by
  refine ⟨_, execCall_pushes nnn h, by simp, rfl, ⟨rfl, rfl⟩, fun p hp => ?_⟩
  cases p with
  | stack k => exact Vector.getElem?_set_ne h (by rintro rfl; exact hp (.inl rfl))
  | sp | pc | out => simp at hp
  | _ => rfl

/-- RET with a slot in use: SP is lowered, and the pc is 2 after the word in the slot below it (R121). -/
theorem exec_ret_pops {s : State} (h : 0 < s.sp.val) :
    ∃ t w, exec .ret s = .next t ∧ s.stack[s.sp.val - 1]? = some w ∧ t.sp.val = s.sp.val - 1 ∧
      EndsAt t (w + 2) false ∧ Frame (fun p => p = .sp ∨ p = .pc ∨ p = .out) s t :=
  ⟨_, _, execRet_pops h, Vector.getElem?_eq_getElem _, rfl, ⟨rfl, rfl⟩,
    frame_iff.2 (by simp [State.getV, State.keyDown])⟩

/-- A part that is after all the same can be taken out of those that may change. -/
theorem Frame.except {changed : Part → Prop} {s t : State} (h : Frame changed s t) {p : Part} (hp : p.Same s t) :
    Frame (fun q => changed q ∧ q ≠ p) s t := by
  intro q hq
  by_cases heq : q = p
  · exact heq ▸ hp
  · exact h q fun hc => hq ⟨hc, heq⟩

/-! ### The obligations -/

/-- Settles O21: the target fits in 16 bits, for JP V0 as well, so the pc is the number itself. -/
theorem jumpsSetThePc : Obligations.JumpsSetThePc := by
  refine fun nnn s => ⟨⟨_, rfl, toNat_addrOfNNN nnn, rfl, frame_finish_pc_out s _ _⟩,
    ⟨_, rfl, ?_, rfl, frame_finish_pc_out s _ _⟩, decode_encode (.jp nnn), decode_encode (.jpV0 nnn)⟩
  have hsum : nnn.toNat + (s.getV 0).toNat < 2 ^ 16 := by omega
  rw [State.finish_pc, BitVec.toNat_add, toNat_addrOfNNN, toNat_wideByte, Nat.mod_eq_of_lt hsum]

/-- Settles O22: each of the four completes as a skip on the comparison it names. -/
theorem registerSkips : Obligations.RegisterSkips := fun x y nn _ =>
  ⟨skipsWhen_of_completeSkip rfl beq_iff_toNat_eq, skipsWhen_of_completeSkip rfl bne_iff_toNat_ne,
    skipsWhen_of_completeSkip rfl beq_iff_toNat_eq, skipsWhen_of_completeSkip rfl bne_iff_toNat_ne,
    decode_encode (.seImm x nn), decode_encode (.sneImm x nn), decode_encode (.seReg x y), decode_encode (.sneReg x y)⟩

/-- Settles O23, by whether a slot is free. -/
theorem callPushesItsAddressOrOverflows : Obligations.CallPushesItsAddressOrOverflows := by
  refine fun nnn s => ⟨fun h => ?_, fun h => ⟨_, execCall_overflow nnn h, fatalEntry_latch s _⟩⟩
  obtain ⟨t, ht, hslot, hsp, ⟨hpc, hout⟩, hframe⟩ := exec_call_pushes nnn h
  exact ⟨t, ht, hslot, hsp, hpc ▸ toNat_addrOfNNN nnn, hout, hframe⟩

/-- Settles O24, by whether a slot is in use. -/
theorem returnPopsOrUnderflows : Obligations.ReturnPopsOrUnderflows := by
  refine fun s => ⟨fun h => ?_, fun h => ⟨_, execRet_underflow h, fatalEntry_latch s _⟩⟩
  obtain ⟨t, w, ht, hslot, hsp, ⟨hpc, hout⟩, hframe⟩ := exec_ret_pops h
  exact ⟨t, w, ht, hslot, hsp, hpc ▸ BitVec.toNat_add w 2, hout, hframe⟩

/-- Settles O25: the RET finds the CALL's address in the slot the CALL used, and lowers SP to where it was. -/
theorem callThenReturnResumesAfterTheCall : Obligations.CallThenReturnResumesAfterTheCall := by
  intro nnn s h
  obtain ⟨t, ht, hslot, hraised, -, hcall⟩ := exec_call_pushes nnn h
  obtain ⟨u, w, hu, hw, hlowered, ⟨hpc, -⟩, hret⟩ := exec_ret_pops (s := t) (by omega)
  have hdepth : t.sp.val - 1 = s.sp.val := by omega
  have hsaved : w = s.pc := Option.some.inj (by rw [← hw, hdepth, hslot])
  have hsp : u.sp = s.sp := Fin.ext (hlowered.trans hdepth)
  have hframe : Frame (fun p => p = .stack s.sp.val ∨ p = .sp ∨ p = .pc ∨ p = .out) s u :=
    hcall.trans (hret.mono fun _ => .inr)
  refine ⟨t, u, ht, hu, hsaved ▸ hpc, hsp, (hframe.except (p := .sp) hsp).mono ?_⟩
  rintro p ⟨hstack | hp | hrest, hne⟩
  · exact .inl hstack
  · exact absurd hp hne
  · exact .inr hrest

end Sys2Proof.Machine

/-! PROOFS of the statements on register load, arithmetic, logic, shift and random (41_alu.md). -/

namespace Sys2Proof.Machine

/-! ### The two ways an instruction of this family completes -/

/-- A destination register written and nothing else: the value is there, V[15] included. -/
theorem leavesInV_of_setV {i : Instr} {s : State} {x : RegIdx} {b : Byte} {value : Nat}
    (h : exec i s = completeNext (s.setV x b)) (hvalue : b.toNat = value) : LeavesInV i s x value := by
  refine ⟨_, h, ?_, ⟨rfl, rfl⟩, (frame_setV (.inl rfl) b).trans (frame_finish (.inr (.inl rfl)) (.inr (.inr rfl)) _ _)⟩
  rw [State.getV_finish, State.getV_setV_same, hvalue]

/-- A result and then a flag written: the flag wins in V[15] (41_alu.md R153). -/
theorem leavesWithFlag_of_setWithFlag {i : Instr} {s : State} {x : RegIdx} {r : Byte} {f : Bool} {value flag : Nat}
    (h : exec i s = completeNext (s.setWithFlag x r f)) (hvalue : r.toNat = value)
    (hflag : (flagByte f).toNat = flag) : LeavesWithFlag i s x value flag := by
  have hframe : Frame (fun p => p = .v x ∨ p = .v 15 ∨ p = .pc ∨ p = .out) s (s.setWithFlag x r f) :=
    frame_setWithFlag (.inl rfl) (.inr (.inl rfl)) r f
  refine ⟨_, h, fun hx => ?_, ?_, ⟨rfl, rfl⟩,
    hframe.trans (frame_finish (.inr (.inr (.inl rfl))) (.inr (.inr (.inr rfl))) _ _)⟩
  · rw [State.getV_finish, State.getV_setWithFlag, if_neg hx, if_pos rfl, hvalue]
  · rw [State.getV_finish, State.getV_setWithFlag, if_pos rfl, hflag]

/-! ### Differences and flags as numbers -/

theorem toNat_byte_sub (a b : Byte) : (a - b).toNat = (a.toNat + 256 - b.toNat) % 256 := by
  rw [BitVec.toNat_sub]
  omega

theorem toNat_carryFlag (a b : Byte) :
    (flagByte (carryFlag a b)).toNat = if a.toNat + b.toNat > 255 then 1 else 0 := by
  simp only [toNat_flagByte, carryFlag_iff, gt_iff_lt]

theorem toNat_noBorrowFlag (a b : Byte) :
    (flagByte (noBorrowFlag a b)).toNat = if a.toNat ≥ b.toNat then 1 else 0 := by
  simp only [toNat_flagByte, noBorrowFlag_iff, ge_iff_le]

/-! ### The random byte (60_exceptions.md R232) -/

theorem State.nextRandom_cons {s : State} {r : Byte} {rest : List Byte} (h : s.randIn = r :: rest) :
    s.nextRandom = r := by
  rw [State.nextRandom, h, List.headD_cons]

theorem State.nextRandom_nil {s : State} (h : s.randIn = []) : s.nextRandom = Config.randomByte s.randDrawn := by
  rw [State.nextRandom, h, List.headD_nil]

theorem and_mask_outside (b mask : Byte) : b &&& mask &&& ~~~mask = 0 := by
  rw [BitVec.and_assoc, BitVec.and_not_self]
  exact BitVec.and_zero

/-- The draw itself touches the random source alone. -/
theorem frame_takeRandom {changed : Part → Prop} {s : State} (hin : changed .randIn) (hdrawn : changed .randDrawn) :
    Frame changed s s.takeRandom :=
  frame_iff.2 (by simp [hin, hdrawn])

/-! ### The obligations -/

/-- Settles O26: each of the three writes V[X] alone. -/
theorem loadAddImmediateAndCopy : Obligations.LoadAddImmediateAndCopy := fun x y nn _ =>
  ⟨leavesInV_of_setV rfl rfl, leavesInV_of_setV rfl (BitVec.toNat_add _ _), leavesInV_of_setV rfl rfl,
    decode_encode (.ldImm x nn), decode_encode (.addImm x nn), decode_encode (.ldReg x y)⟩

/-- Settles O27: each of the three writes V[X] alone, and the bits of a byte are those of its number. -/
theorem bitwiseOperations : Obligations.BitwiseOperations := fun x y _ =>
  ⟨leavesInV_of_setV rfl (BitVec.toNat_or _ _), leavesInV_of_setV rfl (BitVec.toNat_and _ _),
    leavesInV_of_setV rfl (BitVec.toNat_xor _ _),
    decode_encode (.orReg x y), decode_encode (.andReg x y), decode_encode (.xorReg x y)⟩

/-- Settles O28: the sum goes to V[X] first, the carry to V[15] last. -/
theorem addWithCarry : Obligations.AddWithCarry := fun x y _ =>
  ⟨leavesWithFlag_of_setWithFlag rfl (BitVec.toNat_add _ _) (toNat_carryFlag _ _), decode_encode (.addReg x y)⟩

/-- Settles O29: SUB and SUBN are one difference with the operands swapped. -/
theorem subtractionsWithBorrow : Obligations.SubtractionsWithBorrow := fun _ _ _ =>
  ⟨leavesWithFlag_of_setWithFlag rfl (toNat_byte_sub _ _) (toNat_noBorrowFlag _ _),
    leavesWithFlag_of_setWithFlag rfl (toNat_byte_sub _ _) (toNat_noBorrowFlag _ _)⟩

/-- Settles O30, by the value of SHIFT_SOURCE: the source the shifts read is the `v` of the statement. -/
theorem shiftsByOne : Obligations.ShiftsByOne := by
  intro x y s v hv
  have hsource : (s.shiftOperand x y).toNat = v := by
    rw [hv, State.shiftOperand]
    cases s.params.shiftSource with
    | vx => rfl
    | vy => rfl
  obtain ⟨hshr, hshrFlag, hshl, hshlFlag⟩ := shift_numbers (s.shiftOperand x y)
  rw [hsource] at hshr hshrFlag hshl hshlFlag
  exact ⟨leavesWithFlag_of_setWithFlag rfl hshr hshrFlag, leavesWithFlag_of_setWithFlag rfl hshl hshlFlag⟩

/-- Settles O31: V[X] takes the next random byte masked; which byte that is depends on whether one is supplied. -/
theorem randomByteIsMasked : Obligations.RandomByteIsMasked := by
  intro x nn s
  have hv : ((s.takeRandom.setV x (s.nextRandom &&& nn)).finish (s.pc + 2) false).getV x = s.nextRandom &&& nn :=
    State.getV_setV_same _ _ _
  refine ⟨_, rfl, fun r rest h => ⟨?_, congrArg List.tail h⟩, fun h => ⟨?_, congrArg List.tail h⟩, rfl, ?_,
    ⟨rfl, rfl⟩, ?_⟩
  · exact hv.trans (by rw [State.nextRandom_cons h])
  · exact hv.trans (by rw [State.nextRandom_nil h])
  · exact (congrArg (· &&& ~~~nn) hv).trans (and_mask_outside _ nn)
  · exact (frame_takeRandom (by simp) (by simp)).trans
      ((frame_setV (.inl rfl) _).trans (frame_finish (by simp) (by simp) _ _))

end Sys2Proof.Machine

/-! PROOFS of the statements on the index register and memory operands (42_index_memory.md). -/

namespace Sys2Proof.Machine

/-! ### The index register -/

/-- I written and nothing else: the value is there. -/
theorem leavesInI_of_setI {i : Instr} {s : State} {w : Word} {value : Nat}
    (h : exec i s = completeNext { s with i := w }) (hvalue : w.toNat = value) : LeavesInI i s value := by
  have hset : Frame (fun p => p = .i ∨ p = .pc ∨ p = .out) s { s with i := w } :=
    frame_iff.2 (by simp [State.getV, State.keyDown])
  exact ⟨_, h, hvalue, ⟨rfl, rfl⟩, hset.trans (frame_finish (.inr (.inl rfl)) (.inr (.inr rfl)) _ _)⟩

/-! ### A store from I upward -/

/-- A store of consecutive bytes changes no part but the bytes it covers. -/
theorem frame_writeSpan {changed : Part → Prop} {s : State} {a : Nat} {bs : List Byte}
    (h : ∀ k < bs.length, changed (.byte (a + k))) : Frame changed s { s with mem := s.mem.writeSpan a bs } := by
  intro p hp
  cases p with
  | byte a' =>
    refine Memory.read_writeSpan_other s.mem a bs ?_
    by_contra hin
    have hk : a + (a' - a) = a' := by omega
    exact hp (hk ▸ h (a' - a) (by omega))
  | _ => rfl

/-! ### Which path a store takes -/

section
/- The three paths of a store of `n` bytes from `a` upward, as `execLdB_cases` and `execStRegs_cases` answer them. -/
variable {a n : Nat} {low high stored : Prop}
  (paths : a < Config.loadOffset ∧ low ∨ Config.memSize < a + n ∧ high ∨
    (Config.loadOffset ≤ a ∧ a + n ≤ Config.memSize) ∧ stored)
include paths

/-- A base below LOAD_OFFSET takes the path of StoreProtect (20_memory.md R67): at most sixteen bytes from there do not
reach the end of memory. -/
theorem storePath_low (hn : n ≤ 16) (h : a < 0x200) : low := by
  obtain ⟨-, hlow⟩ | ⟨hpast, -⟩ | ⟨⟨habove, -⟩, -⟩ := paths
  · exact hlow
  · simp only [Config.memSize] at hpast; omega
  · exact absurd h (Nat.not_lt.2 habove)

/-- An end above memory takes the path of MemBounds: the base is not below LOAD_OFFSET then. -/
theorem storePath_high (hn : n ≤ 16) (h : 4096 < a + n) : high := by
  obtain ⟨hbelow, -⟩ | ⟨-, hhigh⟩ | ⟨⟨-, hin⟩, -⟩ := paths
  · simp only [Config.loadOffset] at hbelow; omega
  · exact hhigh
  · exact absurd h (Nat.not_lt.2 hin)

theorem storePath_inside (hbase : 0x200 ≤ a) (hend : a + n ≤ 4096) : stored := by
  obtain ⟨hbelow, -⟩ | ⟨hpast, -⟩ | ⟨-, hstored⟩ := paths
  · exact absurd hbase (Nat.not_le.2 hbelow)
  · exact absurd hend (Nat.not_le.2 hpast)
  · exact hstored

end

/-! ### What is stored and loaded, byte by byte -/

/-- After a store from `a` upward the cell `a + k` reads as the byte number `k` of those stored. -/
theorem Memory.read_writeSpan_at (m : Memory) (a : Nat) {bs : List Byte} {k : Nat} {b : Byte} (h : bs[k]? = some b) :
    (m.writeSpan a bs).read (a + k) = b := by
  simp [Memory.read_writeSpan, h]

/-- A bulk load leaves in `V[y]`, for each `y` up to `x`, the byte at `a + y` (42_index_memory.md R165). -/
theorem State.getV_setRegs_readSpan (s : State) (m : Memory) (a : Nat) {x y : RegIdx} (h : y.toNat ≤ x.toNat) :
    (s.setRegs 0 (m.readSpan a (bulkCount x))).getV y = m.read (a + y.toNat) := by
  have hcount : y.toNat < bulkCount x := Nat.lt_succ_of_le h
  have hlen : 0 + (m.readSpan a (bulkCount x)).length ≤ 16 := by simpa using bulkCount_le x
  rw [State.getV_setRegs _ _ _ hlen, if_pos (Nat.zero_le _), Memory.getElem?_readSpan, Nat.sub_zero, if_pos hcount,
    Option.getD_some]

/-- The cell at `a + k` of a stored decimal: the digit number `k`, which fits in the byte (R163). -/
theorem Memory.toNat_read_writeSpan_bcdDigits (m : Memory) (a : Nat) {v : Byte} {k digit : Nat}
    (hk : (bcdDigits v)[k]? = some (BitVec.ofNat 8 digit)) (hd : digit < 256) :
    ((m.writeSpan a (bcdDigits v)).read (a + k)).toNat = digit := by
  rw [Memory.read_writeSpan_at m a hk]
  exact Nat.mod_eq_of_lt hd

/-! ### The obligations -/

/-- Settles O32: each of the three writes I alone. -/
theorem indexRegisterWrites : Obligations.IndexRegisterWrites := by
  refine fun x nnn s => ⟨leavesInI_of_setI rfl (toNat_addrOfNNN nnn), leavesInI_of_setI rfl ?_,
    leavesInI_of_setI rfl (toNat_glyphAddr _), decode_encode (.ldI nnn), decode_encode (.addI x),
    decode_encode (.ldF x)⟩
  rw [BitVec.toNat_add, toNat_wideByte]

/-- Settles O33: the three digits are stored, and each is a number below 256. -/
theorem bcdStoresThreeDigits : Obligations.BcdStoresThreeDigits := by
  intro x s hbase hend
  have hv := (s.getV x).isLt
  refine ⟨_, storePath_inside (execLdB_cases x s) hbase hend, ?_, ?_, ?_, ⟨rfl, rfl⟩, ?_⟩
  · exact Memory.toNat_read_writeSpan_bcdDigits s.mem s.base (k := 0) rfl (by omega)
  · exact Memory.toNat_read_writeSpan_bcdDigits s.mem s.base (k := 1) rfl (by omega)
  · exact Memory.toNat_read_writeSpan_bcdDigits s.mem s.base (k := 2) rfl (by omega)
  · exact (frame_writeSpan fun k hk => .inl ⟨k, hk, rfl⟩).trans (frame_finish (by simp) (by simp) _ _)

/-- Settles O34: the registers `V[0]` to `V[X]` are the bytes stored. -/
theorem bulkStore : Obligations.BulkStore := by
  intro x s hbase hend
  refine ⟨_, storePath_inside (execStRegs_cases x s) hbase hend,
    fun k hk => Memory.read_writeSpan_firstRegs s.mem s.base s hk, ⟨rfl, rfl⟩, ?_⟩
  refine (frame_writeSpan fun k hk => .inl ⟨k, ?_, rfl⟩).trans (frame_finish (by simp) (by simp) _ _)
  exact Nat.le_of_lt_succ (hk.trans_eq (State.length_firstRegs s (bulkCount_le x)))

/-- Settles O35: the bytes read are loaded into `V[0]` to `V[X]`. -/
theorem bulkLoad : Obligations.BulkLoad := by
  intro x s hend
  have hload := ((execLdRegs_cases x s).resolve_left fun h => absurd hend (Nat.not_lt.2 (Nat.le_of_lt_succ h.1))).2
  refine ⟨_, hload, fun k hk => State.getV_setRegs_readSpan s s.mem s.base hk, ⟨by simp, rfl⟩, ?_⟩
  refine (frame_setRegs ?_ fun y hy => .inl ⟨y, ?_, rfl⟩).trans (frame_finish (by simp) (by simp) _ _)
  · simpa using bulkCount_le x
  · exact Nat.le_of_lt_succ (hy.trans_eq (Memory.length_readSpan _ _ _))

/-- Settles O36: the store left `V[k]` at `I + k` and did not move I, so the load finds it there. -/
theorem bulkStoreThenLoadRestores : Obligations.BulkStoreThenLoadRestores := by
  intro x s t u hbase hend h hmem hi
  obtain ⟨t', ht', hstored, -, hframe⟩ := bulkStore x s hbase hend
  obtain rfl : t' = t := Host.Outcome.next.inj (ht'.symm.trans h)
  have hsame : u.i = s.i := hi.trans (hframe .i (by simp))
  obtain ⟨r, hr, hloaded, -, -⟩ := bulkLoad x u (hsame ▸ hend)
  refine ⟨r, hr, fun k hk => ?_⟩
  rw [hloaded k hk, hsame, hmem, hstored k hk]

/-- Settles O37, instruction by instruction: the path its operand takes is the fatal entry with this address. -/
theorem memoryOperandFaults : Obligations.MemoryOperandFaults := by
  intro x y n s
  have hx := bulkCount_le x
  refine ⟨fun h => ⟨_, storePath_low (execLdB_cases x s) (by decide) h, fatalEntry_latch s _⟩,
    fun h => ⟨_, storePath_high (execLdB_cases x s) (by decide) (Nat.lt_succ_of_le h), fatalEntry_latch s _⟩,
    fun h => ⟨_, storePath_low (execStRegs_cases x s) hx h, fatalEntry_latch s _⟩,
    fun h => ⟨_, storePath_high (execStRegs_cases x s) hx (Nat.lt_succ_of_le h), fatalEntry_latch s _⟩,
    fun h => ⟨_, ((execLdRegs_cases x s).resolve_right fun hin => ?_).2, fatalEntry_latch s _⟩,
    fun hn h => ⟨_, ((execDrw_cases x y n s).resolve_right fun hin => ?_).2, fatalEntry_latch s _⟩⟩
  · exact absurd hin.1 (Nat.not_le.2 (Nat.lt_succ_of_le h))
  · obtain ⟨hzero | hin, -⟩ := hin
    · omega
    · simp only [State.base, Config.memSize] at hin; omega

end Sys2Proof.Machine

/-! PROOFS of the statements on the display (43_display.md). -/

namespace Sys2Proof.Machine

/-! ### The framebuffer as the part that is written -/

theorem frame_setFb {changed : Part → Prop} {s : State} (h : ∀ px py, changed (.pixel px py)) (fb : Framebuffer) :
    Frame changed s { s with fb := fb } := by
  intro p hp
  cases p with
  | pixel px py => exact absurd (h px py) hp
  | _ => rfl

/-! ### The two paths of a draw -/

section
variable {x y : RegIdx} {n : BitVec 4} {s : State}

theorem exec_drw_inside (h : n.toNat = 0 ∨ s.base + n.toNat ≤ Config.memSize) :
    exec (.drw x y n) s = .next (State.finish
      (State.setV { s with fb := (drawnSprite x y n s).1 } flagReg (flagByte (drawnSprite x y n s).2))
      (s.pc + 2) true) :=
  ((execDrw_cases x y n s).resolve_left fun hout => by omega).2

theorem exec_drw_outside (h : 0 < n.toNat ∧ Config.memSize < s.base + n.toNat) :
    exec (.drw x y n) s = .next (s.latch (.memBounds (max s.base Config.memSize))) :=
  ((execDrw_cases x y n s).resolve_right fun hin => by omega).2

end

/-! ### What a draw inside memory does, in terms of `SpriteHits` -/

section
variable {x y : RegIdx} {n : BitVec 4} {s t : State} {px py : Nat}

/-- The pixels the rows read from memory land on are those `SpriteHits` names. -/
theorem mem_spriteHits_readSpan {h : Nat} :
    (px, py) ∈ spriteHits s.params.spriteEdge (s.getV x).toNat (s.getV y).toNat (s.mem.readSpan s.base h) ↔
      SpriteHits s x y h px py := by
  rw [mem_spriteHits, SpriteHits]
  refine exists_congr fun r => ?_
  simp [Memory.getElem?_readSpan, and_assoc, State.base, spriteBit]

theorem length_spriteRows_le (s : State) (n : BitVec 4) : (s.mem.readSpan s.base n.toNat).length ≤ 32 := by
  rw [Memory.length_readSpan]
  omega

theorem drawnSprite_pixel_of_hit (h : SpriteHits s x y n.toNat px py) :
    (drawnSprite x y n s).1.pixel px py = !s.fb.pixel px py := by
  rw [drawnSprite, (drawRows_spec _ _ _ (length_spriteRows_le s n) _).1, decide_eq_true (mem_spriteHits_readSpan.2 h),
    Bool.xor_true]

theorem drawnSprite_pixel_of_not_hit (h : ¬SpriteHits s x y n.toNat px py) :
    (drawnSprite x y n s).1.pixel px py = s.fb.pixel px py := by
  rw [drawnSprite, (drawRows_spec _ _ _ (length_spriteRows_le s n) _).1,
    decide_eq_false (mt mem_spriteHits_readSpan.1 h), Bool.xor_false]

theorem drawnSprite_collides_iff :
    (drawnSprite x y n s).2 = true ↔ ∃ px py, SpriteHits s x y n.toNat px py ∧ s.fb.pixel px py = true := by
  rw [drawnSprite, (drawRows_spec _ _ _ (length_spriteRows_le s n) _).2, Prod.exists]
  simp only [mem_spriteHits_readSpan]

/-- Where a sprite lands depends on V[X], V[Y], I, memory and SPRITE_EDGE alone. -/
theorem SpriteHits.congr {h : Nat} (hx : t.getV x = s.getV x) (hy : t.getV y = s.getV y) (hi : t.i = s.i)
    (hmem : ∀ a, t.mem.read a = s.mem.read a) (hparams : t.params = s.params) :
    SpriteHits t x y h px py ↔ SpriteHits s x y h px py := by
  simp only [SpriteHits, hx, hy, hi, hmem, hparams]

end

/-! ### A sprite wholly on the screen (43_display.md R183) -/

/-- On the screen a bit lands where it is, under either edge rule. -/
theorem place_onScreen (edge : SpriteEdge) {x y : Nat} (hx : x < 64) (hy : y < 32) : place edge x y = some (x, y) := by
  cases edge with
  | wrap => simp only [place, Config.fbWidth, Config.fbHeight, Nat.mod_eq_of_lt hx, Nat.mod_eq_of_lt hy]
  | clip => exact if_pos ⟨hx, hy⟩

theorem rowHits_onScreen (e e' : SpriteEdge) {x0 y : Nat} (hx : x0 + 7 ≤ 63) (hy : y < 32) (b : Byte) :
    rowHits e x0 y b = rowHits e' x0 y b := by
  refine List.filterMap_congr fun c hc => ?_
  have hxc : x0 + c < 64 := by
    have := List.mem_range.1 hc
    omega
  rw [place_onScreen e hxc hy, place_onScreen e' hxc hy]

theorem spriteHits_onScreen (e e' : SpriteEdge) {x0 y : Nat} {bs : List Byte} (hx : x0 + 7 ≤ 63)
    (hy : y + bs.length ≤ 32) : spriteHits e x0 y bs = spriteHits e' x0 y bs := by
  induction bs generalizing y with
  | nil => rfl
  | cons b bs ih =>
    rw [List.length_cons] at hy
    rw [spriteHits, spriteHits, rowHits_onScreen e e' hx (by omega) b, ih (by omega)]

/-- Such a draw is the same whatever SPRITE_EDGE is put in its place. -/
theorem drawnSprite_onScreen {x y : RegIdx} {n : BitVec 4} {s : State} (e : SpriteEdge)
    (hx : (s.getV x).toNat + 7 ≤ 63) (hy : (s.getV y).toNat + n.toNat ≤ 32) :
    drawnSprite x y n { s with params := { s.params with spriteEdge := e } } = drawnSprite x y n s := by
  have hrows : (s.getV y).toNat + (s.mem.readSpan s.base n.toNat).length ≤ 32 := by rwa [Memory.length_readSpan]
  rw [drawnSprite, drawnSprite, drawRows_eq, drawRows_eq]
  exact congrArg (List.foldl turnOver (s.fb, false)) (spriteHits_onScreen e s.params.spriteEdge hx hrows)

/-! ### The obligations -/

/-- Settles O39: the whole framebuffer is replaced by the clear one. -/
theorem clearScreenUnsetsEveryPixel : Obligations.ClearScreenUnsetsEveryPixel := by
  refine ⟨fun s => ⟨_, completeDisplay_eq _, Framebuffer.pixel_clear, ⟨rfl, rfl⟩, ?_⟩, decode_encode .cls⟩
  exact (frame_setFb (fun px py => .inl ⟨px, py, rfl⟩) _).trans (frame_finish (by simp) (by simp) _ _)

/-- Settles O40: the draw does not fault, and `drawnSprite` is the screen and the collision it leaves. -/
theorem drawIsXorWithTheSpriteMask : Obligations.DrawIsXorWithTheSpriteMask := by
  intro x y n s hin
  refine ⟨_, exec_drw_inside hin, fun _ _ => drawnSprite_pixel_of_hit, fun _ _ => drawnSprite_pixel_of_not_hit,
    fun h => ?_, fun h => ?_, ⟨rfl, rfl⟩, ?_⟩
  · exact (State.getV_setV_same _ _ _).trans (congrArg flagByte (drawnSprite_collides_iff.2 h))
  · exact (State.getV_setV_same _ _ _).trans
      (congrArg flagByte (Bool.eq_false_iff.2 (mt drawnSprite_collides_iff.1 h)))
  · exact (frame_setFb (fun px py => .inl ⟨px, py, rfl⟩) _).trans
      ((frame_setV (.inr (.inl rfl)) _).trans (frame_finish (by simp) (by simp) _ _))

/-- Settles O41: V[15] being neither coordinate, the second draw hits the same pixels and turns each back. -/
theorem drawingTwiceRestoresTheScreen : Obligations.DrawingTwiceRestoresTheScreen := by
  intro x y n s t hx hy hin h
  obtain ⟨t', ht', hhit, hmiss, -, -, -, hframe⟩ := drawIsXorWithTheSpriteMask x y n s hin
  obtain rfl : t' = t := Host.Outcome.next.inj (ht'.symm.trans h)
  have hi : t'.i = s.i := hframe .i (by simp)
  have hsame (px py : Nat) : SpriteHits t' x y n.toNat px py ↔ SpriteHits s x y n.toNat px py :=
    SpriteHits.congr (hframe (.v x) (by simpa using hx)) (hframe (.v y) (by simpa using hy)) hi
      (fun a => hframe (.byte a) (by simp)) (hframe .params (by simp))
  obtain ⟨u, hu, hhit', hmiss', hone, hzero, -, -⟩ := drawIsXorWithTheSpriteMask x y n t' (hi ▸ hin)
  refine ⟨u, hu, Framebuffer.ext_pixel fun px py => ?_, ?_⟩
  · by_cases hp : SpriteHits s x y n.toNat px py
    · rw [hhit' px py ((hsame px py).2 hp), hhit px py hp, Bool.not_not]
    · rw [hmiss' px py (mt (hsame px py).1 hp), hmiss px py hp]
  · have hflag : u.getV 15 = 1 ↔ ∃ px py, SpriteHits t' x y n.toNat px py ∧ t'.fb.pixel px py = true :=
      ⟨fun h1 => by_contra fun hno => absurd (h1.symm.trans (hzero hno)) (by decide), hone⟩
    rw [hflag]
    refine exists_congr fun px => exists_congr fun py => ?_
    rw [hsame]
    exact and_congr_right fun hp => by rw [hhit px py hp, Bool.not_eq_true']

/-- Settles O42: SPRITE_EDGE is not looked at before the fault, and on the screen both values place a bit alike. -/
theorem edgeModesAgreeOnScreen : Obligations.EdgeModesAgreeOnScreen := by
  intro x y n s t e hx hy h
  rcases execDrw_cases x y n s with ⟨hout, hs⟩ | ⟨hin, hs⟩ <;> obtain rfl := Host.Outcome.next.inj (h.symm.trans hs)
  · exact exec_drw_outside hout
  · refine Eq.trans (exec_drw_inside hin) ?_
    rw [drawnSprite_onScreen e hx hy]
    rfl

end Sys2Proof.Machine

/-! PROOFS of the statements on the keypad and the timers (44_keypad_timers.md). -/

namespace Sys2Proof.Machine

/-! ### The keys as the statements read them -/

/-- The statements read a key out of the vector, the meanings ask `keyDown`; on the sixteen keys the two agree. -/
theorem State.keys_getElem?_eq_some (s : State) {k : Nat} (hk : k < 16) {b : Bool} :
    s.keys[k]? = some b ↔ s.keyDown k = b := by
  simp [State.keyDown, hk]

/-- The key a register value names is always one of the sixteen (R190). -/
theorem lowNibble_lt (b : Byte) : lowNibble b < 16 := Nat.mod_lt _ (by decide)

/-! ### The two paths of the key wait (R193) -/

section
variable {x : RegIdx} {s : State}

/-- A pressed key with none pressed below it is the key the wait takes: no other key is least. -/
theorem execLdVxK_of_least_key {k : Nat} (hk : k < 16) (hdown : s.keyDown k = true)
    (hleast : ∀ j < k, s.keyDown j = false) :
    execLdVxK x s = completeNext (s.setV x (BitVec.ofNat 8 k)) := by
  rcases execLdVxK_cases x s with ⟨hnone, -⟩ | ⟨j, -, hj, hjleast, e⟩
  · exact absurd ((hnone k hk).symm.trans hdown) (by decide)
  · rcases Nat.lt_trichotomy j k with hlt | rfl | hgt
    · exact absurd ((hleast j hlt).symm.trans hj) (by decide)
    · exact e
    · exact absurd ((hjleast k hgt).symm.trans hdown) (by decide)

/-- With no key pressed the wait completes at its own pc. -/
theorem execLdVxK_of_no_key (hnone : ∀ k < 16, s.keyDown k = false) :
    execLdVxK x s = completeJump s s.pc := by
  simp only [execLdVxK, State.firstKey_none.2 hnone]

/-- Completing at the pc itself changes the result alone. -/
theorem frame_finish_at_pc (d : Bool) : Frame (fun p => p = .out) s (s.finish s.pc d) :=
  ((frame_finish_pc_out s s.pc d).except (p := .pc) rfl).mono fun _ ⟨hp, hne⟩ => hp.resolve_left hne

end

/-! ### The timers as the parts that are written (R194, R195) -/

section
variable {changed : Part → Prop} {s : State}

theorem frame_setDt (h : changed .dt) (b : Byte) : Frame changed s { s with dt := b } := by
  intro p hp
  cases p with
  | dt => exact absurd h hp
  | _ => rfl

theorem frame_setSt (h : changed .st) (b : Byte) : Frame changed s { s with st := b } := by
  intro p hp
  cases p with
  | st => exact absurd h hp
  | _ => rfl

end

/-! ### The obligations -/

/-- Settles O43: both skip on `keyDown` of the low nibble, SKNP on its negation. -/
theorem keySkips : Obligations.KeySkips := by
  intro x s
  have hkey (b : Bool) : s.keyDown (lowNibble (s.getV x)) = b ↔ s.keys[(s.getV x).toNat % 16]? = some b :=
    (s.keys_getElem?_eq_some (lowNibble_lt (s.getV x))).symm
  exact ⟨skipsWhen_of_completeSkip rfl (hkey true),
    skipsWhen_of_completeSkip rfl ((Bool.not_eq_true' _).to_iff.trans (hkey false)),
    decode_encode (.skp x), decode_encode (.sknp x)⟩

/-- Settles O44, by whether a key is pressed: the least one goes to V[X], and with none the step ends at its own pc. -/
theorem keyWaitTakesTheLeastKeyOrParks : Obligations.KeyWaitTakesTheLeastKeyOrParks := by
  refine fun x s => ⟨fun k hk hdown hleast => ?_, fun hnone => ?_, decode_encode (.ldVxK x)⟩
  · refine leavesInV_of_setV (execLdVxK_of_least_key hk ((s.keys_getElem?_eq_some hk).1 hdown) fun j hj => ?_)
      ((BitVec.toNat_ofNat k 8).trans (Nat.mod_eq_of_lt (by omega)))
    exact (s.keys_getElem?_eq_some (hj.trans hk)).1 (hleast j hj)
  · exact ⟨_, execLdVxK_of_no_key fun k hk => (s.keys_getElem?_eq_some hk).1 (hnone k hk), rfl,
      frame_finish_at_pc false⟩

/-- Settles O45: each of the three writes its one destination and completes. -/
theorem timerTransfers : Obligations.TimerTransfers := fun x s =>
  ⟨leavesInV_of_setV rfl rfl,
    ⟨_, rfl, rfl, ⟨rfl, rfl⟩, (frame_setDt (.inl rfl) (s.getV x)).trans (frame_finish (by simp) (by simp) _ _)⟩,
    ⟨_, rfl, rfl, ⟨rfl, rfl⟩, (frame_setSt (.inl rfl) (s.getV x)).trans (frame_finish (by simp) (by simp) _ _)⟩,
    decode_encode (.ldVxDt x), decode_encode (.ldDtVx x), decode_encode (.ldStVx x)⟩

end Sys2Proof.Machine

/-! PROOFS of the statements on faults, timers and the host's other operations (60_exceptions.md). -/

namespace Sys2Proof.Machine

/-! ### What an instruction raises and what it reports -/

/-- Which instruction raises which fault, when, and with what address (60_exceptions.md R210, R212 to R215). -/
def RaisedBy (i : Instr) (s : State) : Fault → Prop
  | .stackOverflow a => (∃ nnn, i = .call nnn) ∧ s.sp.val = 16 ∧ a = s.pc.toNat
  | .stackUnderflow a => i = .ret ∧ s.sp.val = 0 ∧ a = s.pc.toNat
  | .memBounds a => 4096 ≤ a ∧ s.i.toNat ≤ a ∧ a < s.i.toNat + 16 ∧
      ((∃ x y n, i = .drw x y n) ∨ (∃ x, i = .ldB x ∨ i = .stRegs x ∨ i = .ldRegs x))
  | .storeProtect a => a < 0x200 ∧ a = s.i.toNat ∧ ∃ x, i = .ldB x ∨ i = .stRegs x

/-- The display_changed an instruction reports when it completes (60_exceptions.md R230). -/
def displayChanged : Instr → Bool
  | .cls | .drw _ _ _ => true
  | _ => false

theorem displayChanged_iff {i : Instr} : displayChanged i = true ↔ i = .cls ∨ ∃ x y n, i = .drw x y n := by
  cases i <;> simp [displayChanged]

/-- An operand of at most sixteen bytes that ends above memory: the lowest address outside is among the sixteen from I. -/
theorem raisedBy_memBounds {i : Instr} {s : State} {n : Nat} (hn : n ≤ 16) (h : Config.memSize < s.base + n)
    (hi : (∃ x y n, i = .drw x y n) ∨ (∃ x, i = .ldB x ∨ i = .stRegs x ∨ i = .ldRegs x)) :
    RaisedBy i s (.memBounds (max s.base Config.memSize)) := by
  refine ⟨le_max_right _ _, le_max_left _ _, ?_, hi⟩
  simp only [State.base, Config.memSize] at h ⊢
  omega

/-- An instruction takes the fatal entry with a fault it raises, or completes with the latch as it was and the
display_changed that is its own. -/
theorem exec_raises_or_reports (i : Instr) (s : State) :
    (∃ c, exec i s = .next (s.latch c) ∧ RaisedBy i s c) ∨
    ∃ t, exec i s = .next t ∧ t.fault = s.fault ∧ t.out = .ok (displayChanged i) none := by
  cases i with
  | ret =>
    by_cases h : s.sp.val = 0
    · exact .inl ⟨_, execRet_underflow h, rfl, h, rfl⟩
    · exact .inr ⟨_, execRet_pops (Nat.pos_of_ne_zero h), rfl, rfl⟩
  | call nnn =>
    by_cases h : s.sp.val < 16
    · exact .inr ⟨_, execCall_pushes nnn h, rfl, rfl⟩
    · have hfull : s.sp.val = 16 := by omega
      exact .inl ⟨_, execCall_overflow nnn hfull, ⟨nnn, rfl⟩, hfull, rfl⟩
  | drw x y n =>
    rcases execDrw_cases x y n s with ⟨⟨-, hpast⟩, e⟩ | ⟨-, e⟩
    · exact .inl ⟨_, e, raisedBy_memBounds (Nat.le_of_lt n.isLt) hpast (.inl ⟨x, y, n, rfl⟩)⟩
    · exact .inr ⟨_, e, rfl, rfl⟩
  | ldB x =>
    rcases execLdB_cases x s with ⟨hlow, e⟩ | ⟨hpast, e⟩ | ⟨-, e⟩
    · exact .inl ⟨_, e, hlow, rfl, x, .inl rfl⟩
    · exact .inl ⟨_, e, raisedBy_memBounds (by decide) hpast (.inr ⟨x, .inl rfl⟩)⟩
    · exact .inr ⟨_, e, rfl, rfl⟩
  | stRegs x =>
    rcases execStRegs_cases x s with ⟨hlow, e⟩ | ⟨hpast, e⟩ | ⟨-, e⟩
    · exact .inl ⟨_, e, hlow, rfl, x, .inr rfl⟩
    · exact .inl ⟨_, e, raisedBy_memBounds (bulkCount_le x) hpast (.inr ⟨x, .inr (.inl rfl)⟩)⟩
    · exact .inr ⟨_, e, rfl, rfl⟩
  | ldRegs x =>
    rcases execLdRegs_cases x s with ⟨hpast, e⟩ | ⟨-, e⟩
    · exact .inl ⟨_, e, raisedBy_memBounds (bulkCount_le x) hpast (.inr ⟨x, .inr (.inr rfl)⟩)⟩
    · exact .inr ⟨_, e, State.setRegs_fault _ _ _, rfl⟩
  | ldVxK x =>
    rcases execLdVxK_cases x s with ⟨-, e⟩ | ⟨k, -, -, -, e⟩
    · exact .inr ⟨_, e, rfl, rfl⟩
    · exact .inr ⟨_, e, rfl, rfl⟩
  | _ => exact .inr ⟨_, rfl, rfl, rfl⟩

/-- The same of the state an instruction is known to answer. -/
theorem raised_or_reported {i : Instr} {s t : State} (h : exec i s = .next t) :
    (∃ c, t = s.latch c ∧ RaisedBy i s c) ∨ t.fault = s.fault ∧ t.out = .ok (displayChanged i) none := by
  rcases exec_raises_or_reports i s with ⟨c, e, hc⟩ | ⟨u, e, hfault, hout⟩ <;>
    obtain rfl := Host.Outcome.next.inj (h.symm.trans e)
  · exact .inl ⟨c, rfl, hc⟩
  · exact .inr ⟨hfault, hout⟩

/-! ### What an operation can do to the latch (R216, R220, R231) -/

/-- A `step` operation keeps the latch, or on a live CORE takes a fatal entry. -/
theorem instrStep_fault {s t : State} (h : instrStep s = .next t) :
    t.fault = s.fault ∨ s.fault = none ∧ ∃ c, t = s.latch c := by
  rcases instrStep_cases s with ⟨c, -, e⟩ | ⟨hf, ⟨c, -, e⟩ | ⟨w, -, ⟨-, e⟩ | ⟨i, -, e⟩⟩⟩
  · cases h.symm.trans e; exact .inl rfl
  · cases h.symm.trans e; exact .inr ⟨hf, c, rfl⟩
  · cases h.symm.trans e; exact .inl rfl
  · rcases raised_or_reported (e.symm.trans h) with ⟨c, hc, -⟩ | ⟨hkept, -⟩
    · exact .inr ⟨hf, c, hc⟩
    · exact .inl hkept

/-- An operation keeps the latch, or is `reset` and clears it, or is a `step` of a live CORE and takes a fatal entry. -/
theorem operate_fault {op : HostOp} {s t : State} (h : operate op s = .next t) :
    t.fault = s.fault ∨ (op = .reset ∧ t.fault = none) ∨ (op = .step ∧ s.fault = none ∧ ∃ c, t = s.latch c) := by
  cases op with
  | step => exact (instrStep_fault h).imp_right fun hlatched => .inr ⟨rfl, hlatched⟩
  | reset => cases h; exact .inr (.inl ⟨rfl, rfl⟩)
  | tick => cases h; exact .inl rfl
  | fbRead => cases h; exact .inl rfl
  | load bytes =>
    cases h
    rcases Nat.lt_or_ge 3584 bytes.length with hlong | hfits
    · exact .inl (by rw [State.hostLoad_overflows hlong])
    · exact .inl (by rw [State.hostLoad_fits hfits])
  | keySet k pressed =>
    rcases Nat.lt_or_ge k 16 with hk | hk
    · cases h.symm.trans (hostKeySet_defined hk pressed s); exact .inl rfl
    · cases h.symm.trans (hostKeySet_undefined hk pressed s)

/-! ### Which operations are refused (R228) -/

theorem wellFormed_eq_false_iff {op : HostOp} :
    op.WellFormed = false ↔ ∃ k b, op = .keySet k b ∧ 16 ≤ k := by
  cases op <;> simp [HostOp.WellFormed, Config.numKeys]

/-- An operation answers a next state, or is a call that is not defined and is refused under its index. -/
theorem operate_next_or_refused (op : HostOp) (s : State) :
    (∃ t, operate op s = .next t) ∨
    ∃ k b, op = .keySet k b ∧ 16 ≤ k ∧ operate op s = .refused (.undefinedKeyIndex k) := by
  cases hop : op.WellFormed with
  | true =>
    obtain ⟨t, ht, -⟩ := operate_next hop s
    exact .inl ⟨t, ht⟩
  | false =>
    obtain ⟨k, b, rfl, hk⟩ := wellFormed_eq_false_iff.1 hop
    exact .inr ⟨k, b, rfl, hk, hostKeySet_undefined hk b s⟩

theorem operate_ne_fault (op : HostOp) (s : State) (r : Fault) : operate op s ≠ .fault r := by
  rcases operate_next_or_refused op s with ⟨t, e⟩ | ⟨k, b, -, -, e⟩ <;> simp [e]

theorem operate_refused_iff {op : HostOp} {s : State} {r : Refusal} :
    operate op s = .refused r ↔ ∃ k b, op = .keySet k b ∧ 16 ≤ k ∧ r = .undefinedKeyIndex k := by
  constructor
  · intro h
    rcases operate_next_or_refused op s with ⟨t, e⟩ | ⟨k, b, hop, hk, e⟩
    · cases h.symm.trans e
    · cases h.symm.trans e; exact ⟨k, b, hop, hk, rfl⟩
  · rintro ⟨k, b, rfl, hk, rfl⟩
    exact hostKeySet_undefined hk b s

/-- A call that is not defined comes next only when it is the first known to come: what is free is a defined call. -/
theorem State.nextOp_eq_undefined_iff {s : State} {k : Nat} {b : Bool} (hk : 16 ≤ k) :
    s.nextOp = .keySet k b ↔ s.schedule.head? = some (.keySet k b) := by
  cases hs : s.schedule with
  | nil =>
    have hfree : s.nextOp ≠ .keySet k b := fun h =>
      absurd (h ▸ State.nextOp_wellFormed (s := s) (by rw [hs]; rfl)) (by simp [HostOp.WellFormed, hk])
    simp [hfree]
  | cons op rest => simp [State.nextOp_cons hs]

/-- Defined calls to come are still defined calls with the first taken off. -/
theorem scheduleWellFormed_tail {ops : List HostOp} (h : scheduleWellFormed ops = true) :
    scheduleWellFormed ops.tail = true := by
  rw [scheduleWellFormed, List.all_eq_true] at h ⊢
  exact fun op hop => h op (List.mem_of_mem_tail hop)

/-! ### The tick (R224, R227) -/

theorem frame_hostTick (s : State) : Frame (fun p => p = .dt ∨ p = .st ∨ p = .out) s s.hostTick :=
  frame_iff.2 (by simp)

theorem cueEvent_none {b : Byte} (h : b.toNat ≠ 1) : cueEvent b = none :=
  if_neg (by rintro rfl; exact h rfl)

theorem State.hostTick_setRegs (s : State) (k : Nat) (bs : List Byte) :
    (s.setRegs k bs).hostTick = s.hostTick.setRegs k bs := by
  induction bs generalizing s k with
  | nil => rfl
  | cons b bs ih => exact ih (s.setV (BitVec.ofNat 4 k) b) (k + 1)

/-- After a tick an instruction that names no timer answers what it answers before, ticked, but reports its own result:
each of its paths is taken on what the tick leaves alone. -/
theorem exec_hostTick {i : Instr} {s t : State} (hi : ∀ x, i ≠ .ldVxDt x ∧ i ≠ .ldDtVx x ∧ i ≠ .ldStVx x)
    (h : exec i s = .next t) : exec i s.hostTick = .next { t.hostTick with out := t.out } := by
  cases i with
  | ret =>
    by_cases hsp : s.sp.val = 0
    · cases h.symm.trans (execRet_underflow hsp)
      exact execRet_underflow (s := s.hostTick) hsp
    · have hpos := Nat.pos_of_ne_zero hsp
      cases h.symm.trans (execRet_pops hpos)
      exact execRet_pops (s := s.hostTick) hpos
  | call nnn =>
    by_cases hsp : s.sp.val < 16
    · cases h.symm.trans (execCall_pushes nnn hsp)
      exact execCall_pushes (s := s.hostTick) nnn hsp
    · have hfull : s.sp.val = 16 := by omega
      cases h.symm.trans (execCall_overflow nnn hfull)
      exact execCall_overflow (s := s.hostTick) nnn hfull
  | drw x y n =>
    rcases execDrw_cases x y n s with ⟨hout, e⟩ | ⟨hin, e⟩ <;> cases h.symm.trans e
    · exact exec_drw_outside (s := s.hostTick) hout
    · exact exec_drw_inside (s := s.hostTick) hin
  | ldB x =>
    have paths := execLdB_cases x s.hostTick
    rcases execLdB_cases x s with ⟨hlow, e⟩ | ⟨hpast, e⟩ | ⟨⟨hbase, hend⟩, e⟩ <;> cases h.symm.trans e
    · exact storePath_low paths (by decide) hlow
    · exact storePath_high paths (by decide) hpast
    · exact storePath_inside paths hbase hend
  | stRegs x =>
    have paths := execStRegs_cases x s.hostTick
    rcases execStRegs_cases x s with ⟨hlow, e⟩ | ⟨hpast, e⟩ | ⟨⟨hbase, hend⟩, e⟩ <;> cases h.symm.trans e
    · exact storePath_low paths (bulkCount_le x) hlow
    · exact storePath_high paths (bulkCount_le x) hpast
    · exact storePath_inside paths hbase hend
  | ldRegs x =>
    have paths := execLdRegs_cases x s.hostTick
    rcases execLdRegs_cases x s with ⟨hpast, e⟩ | ⟨hend, e⟩ <;> cases h.symm.trans e
    · exact (paths.resolve_right fun hin => absurd hin.1 (Nat.not_le.2 hpast)).2
    · have hloaded := (paths.resolve_left fun hout => absurd hend (Nat.not_le.2 hout.1)).2
      rw [← State.hostTick_setRegs] at hloaded
      exact hloaded
  | ldVxK x =>
    rcases execLdVxK_cases x s with ⟨hnone, e⟩ | ⟨k, hk, hdown, hleast, e⟩ <;> cases h.symm.trans e
    · exact execLdVxK_of_no_key (s := s.hostTick) hnone
    · exact execLdVxK_of_least_key (s := s.hostTick) hk hdown hleast
  | ldVxDt x => exact absurd rfl (hi x).1
  | ldDtVx x => exact absurd rfl (hi x).2.1
  | ldStVx x => exact absurd rfl (hi x).2.2
  | _ => cases h; rfl

/-! ### An unrecognized word (R211) -/

/-- With no fault latched, a `step` operation on a word that does not decode reports it and goes on. -/
theorem instrStep_of_decode_none {s : State} {w : Word} (hf : s.fault = none) (hw : s.fetch = .ok w)
    (hd : decode w = none) : instrStep s = .next (s.unrecognized w) := by
  simp only [instrStep, hf, hw, hd]

/-! ### The obligations -/

/-- Settles O11: of a live CORE only a `step` that takes the fatal entry leaves a fault latched. -/
theorem fatalFaultsArePrecise : Obligations.FatalFaultsArePrecise := by
  intro s t hf h hlatched
  rcases operate_fault h with hkept | ⟨-, hcleared⟩ | ⟨hop, -, c, rfl⟩
  · exact absurd (hkept.trans hf) hlatched
  · exact absurd hcleared hlatched
  · exact ⟨hop, c, fatalEntry_latch s.takeOp c⟩

/-- Settles O13: of a faulted CORE no operation takes a new fatal entry, and none but `reset` clears the latch. -/
theorem onlyResetClearsTheLatch : Obligations.OnlyResetClearsTheLatch := by
  intro s t c hf h
  rcases operate_fault h with hkept | hreset | ⟨-, hlive, -⟩
  · exact .inl (hkept.trans hf)
  · exact .inr hreset
  · cases hf.symm.trans hlive

/-- Settles O14: what an instruction raises is `RaisedBy`, and a completion leaves FAULT none. -/
theorem faultsComeOnlyFromTheirInstructions : Obligations.FaultsComeOnlyFromTheirInstructions := by
  intro i s t c hf h hc
  rcases raised_or_reported h with ⟨d, rfl, hraised⟩ | ⟨hkept, -⟩
  · cases hc
    cases c <;> exact hraised
  · cases hc.symm.trans (hkept.trans hf)

/-- Settles O15: the step is the next operation, and only an undefined `key_set` answers no next state. -/
theorem everyDefinedStepAnswersANextState : Obligations.EveryDefinedStepAnswersANextState := by
  refine fun s => ⟨fun hs => ?_, operate_ne_fault s.nextOp s.takeOp, fun r => operate_refused_iff.trans ?_⟩
  · obtain ⟨t, ht, hsch, hmade⟩ := step_next_of_wellFormed (State.nextOp_wellFormed hs)
    exact ⟨t, ht, hsch, hsch ▸ scheduleWellFormed_tail hs, hmade⟩
  · exact exists_congr fun k => exists_congr fun b =>
      and_congr_left fun ⟨hk, _⟩ => State.nextOp_eq_undefined_iff hk

/-- Settles O46: `countDown` is subtraction that stops at 0, and the event is that of ST before the tick. -/
theorem tickCountsBothTimersDown : Obligations.TickCountsBothTimersDown := fun s =>
  ⟨s.hostTick, rfl, toNat_countDown s.dt, toNat_countDown s.st,
    fun h => congrArg Output.ticked ((cueEvent_some s.st).2 h), fun h => congrArg Output.ticked (cueEvent_none h),
    frame_hostTick s⟩

/-- Settles O47, by induction on the ticks. -/
theorem ticksReachZeroAndStay : Obligations.TicksReachZeroAndStay := by
  intro n s
  induction n generalizing s with
  | zero => exact ⟨rfl, rfl⟩
  | succ n ih =>
    obtain ⟨hdt, hst⟩ := ih s.hostTick
    rw [Function.iterate_succ_apply, hdt, hst, State.hostTick_dt, State.hostTick_st, toNat_countDown, toNat_countDown]
    omega

/-- Settles O48: ticked first, the instruction answers the same state but for the result. -/
theorem tickCommutesWithOtherInstructions : Obligations.TickCommutesWithOtherInstructions := by
  refine fun i s t hi h => ⟨_, exec_hostTick hi h, fun p hp => ?_⟩
  cases p with
  | out => exact absurd rfl hp
  | _ => rfl

/-- Settles O49, by whether the index is one of the sixteen. -/
theorem keySetChangesOneKey : Obligations.KeySetChangesOneKey := by
  refine fun k pressed s => ⟨fun hk => ?_, fun hk => hostKeySet_undefined hk pressed s⟩
  obtain ⟨t, ht, hkey, hout, -, hframe⟩ := hostKeySet_next hk pressed s
  exact ⟨t, ht, hkey, hout, hframe⟩

/-- Settles O51: an instruction that completes reports its own display_changed, and a fatal entry reports none. -/
theorem frameReadAndDisplayChanged : Obligations.FrameReadAndDisplayChanged := by
  refine ⟨fun s => ⟨s.hostFbRead, rfl, rfl, frame_iff.2 (by simp)⟩, fun i s t d h hout => ?_, fun i s t hi h => ?_⟩
  · rcases raised_or_reported h with ⟨c, rfl, -⟩ | ⟨-, hreport⟩
    · cases hout
    · injection hreport.symm.trans hout with hchanged
      exact displayChanged_iff.1 hchanged
  · rcases raised_or_reported h with ⟨c, rfl, -⟩ | ⟨-, hreport⟩
    · exact .inr ⟨c, rfl⟩
    · rw [displayChanged_iff.2 hi] at hreport
      exact .inl hreport

/-- Settles O9: the step is the `step` operation, which reports the word it fetched and its address. -/
theorem unrecognizedWordIsADiagnosedNoOp : Obligations.UnrecognizedWordIsADiagnosedNoOp := by
  intro s w hf hs hw hd
  have hstep : instrStep s.takeOp = .next (s.takeOp.unrecognized w) := instrStep_of_decode_none hf hw hd
  exact ⟨_, (step_of_aboutToStep hs).trans hstep, rfl, rfl, frame_iff.2 (by simp)⟩

end Sys2Proof.Machine

/-! PROOFS of the statements on reset, load and the finished program (70_reset_and_hazards.md). -/

namespace Sys2Proof.Machine

/-! ### What an operation returns -/

theorem frame_setOut {changed : Part → Prop} {s : State} (h : changed .out) (o : Output) :
    Frame changed s { s with out := o } := by
  intro p hp
  cases p with
  | out => exact absurd h hp
  | _ => rfl

/-! ### A CORE resting on a JP to itself (R255) -/

/-- JP to its own address completes at the pc it was fetched from. -/
theorem exec_jp_to_itself {nnn : Addr12} {s : State} (h : nnn.toNat = s.pc.toNat) :
    exec (.jp nnn) s = .next (s.finish s.pc false) := by
  have htarget : addrOfNNN nnn = s.pc := BitVec.eq_of_toNat_eq ((toNat_addrOfNNN nnn).trans h)
  exact htarget ▸ completeJump_eq s (addrOfNNN nnn)

/-- Being finished is a matter of FAULT, the pc and memory, which the operations to come are no part of. -/
theorem State.finished_takeOp {s : State} : s.takeOp.Finished ↔ s.Finished := Iff.rfl

theorem State.finished_finish_at_pc {s : State} {d : Bool} : (s.finish s.pc d).Finished ↔ s.Finished := Iff.rfl

/-! ### The obligations -/

/-- Settles O50, by whether the bytes fit between LOAD_OFFSET and the end of memory. -/
theorem loadCopiesTheProgramOrFails : Obligations.LoadCopiesTheProgramOrFails := by
  refine fun bytes s => ⟨fun hfits => ?_, fun hover => ?_⟩
  · refine ⟨_, congrArg Host.Outcome.next (State.hostLoad_fits hfits), rfl, fun k hk => ?_, ?_⟩
    · have hbyte : bytes[k]? = some bytes[k] := List.getElem?_eq_getElem hk
      rw [hbyte, Memory.read_writeSpan_at s.mem _ hbyte]
    · exact (frame_writeSpan fun k hk => .inl ⟨k, hk, rfl⟩).trans (frame_setOut (.inr rfl) _)
  · exact ⟨_, congrArg Host.Outcome.next (State.hostLoad_overflows hover), rfl,
      frame_setOut (changed := fun p => p = .out) rfl _⟩

/-- Settles O55: the JP completes at the pc it rests on, so only the result is new. -/
theorem finishedIsAFixedPoint : Obligations.FinishedIsAFixedPoint := by
  intro s hfinished hs
  have ⟨hlive, w, nnn, hw, hd, hself⟩ := hfinished
  have hstep : step s = .next (s.takeOp.finish s.takeOp.pc false) :=
    (step_decoded hs hlive hw hd).trans (exec_jp_to_itself hself)
  exact ⟨_, hstep, frame_finish_at_pc false, State.finished_finish_at_pc.2 (State.finished_takeOp.2 hfinished)⟩

/-- Settles O20: `hostReset` is `State.reset` but for the five fields that are outside the CORE. -/
theorem resetOperationFromAnyState : Obligations.ResetOperationFromAnyState := by
  refine fun s => ⟨s.hostReset, rfl, fun p hp => ?_, rfl, rfl, rfl, rfl, rfl⟩
  cases p with
  | params | randIn | randDrawn | schedule | opsMade => simp at hp
  | _ => rfl

end Sys2Proof.Machine
